-- ==== Sys2Proof/Word.lean ====
section
/-! DEFINITION. The words of the block (spec 00_scope.md R5, R6): bytes, 64-bit words, 128-bit values,
64-bit buffer addresses and 136-bit command words. Every value is an unsigned bit vector. -/

namespace Sys2Proof

/-- One byte of buffer memory (20_memory.md R30). -/
abbrev Byte := BitVec 8

/-- A 64-bit word: a draw, a half of the state, a length (00_scope.md R5, `DRAW_W`, `LEN_W`). -/
abbrev Word := BitVec 64

/-- A 128-bit value: the state, an argument, a response's DATA (00_scope.md R5, `STATE_W`). -/
abbrev Wide := BitVec 128

/-- A buffer-memory address (00_scope.md R5, `ADDR_W`). -/
abbrev Addr := BitVec 64

/-- A command word `CMD`: `OP` in bits 135:128 over `ARG` in bits 127:0 (30_encoding.md R50). -/
abbrev CommandWord := BitVec 136

end Sys2Proof
end

