-- ==== Sys2Proof/Machine/Prim.lean ====
section
/-! DEFINITION. The notation and arithmetic primitives of 00_scope.md R6, R7. All are total, none sets a flag
and none can fault. They follow R7's own words; UNVERIFIED (log 13): the spec says that it supplies the meanings of
rotate, shift, widening multiply, byte reversal and little-endian itself (93_implementation_defined.md G1 to G5). -/

namespace Sys2Proof.Machine

/-- `lo64(v) = v[63:0]` (R6). -/
def lo64 (v : Wide) : Word := v.extractLsb' 0 64

/-- `hi64(v) = v[127:64]` (R6). -/
def hi64 (v : Wide) : Word := v.extractLsb' 64 64

/-- `hi ‖ lo`: the left operand is the more significant word (R6). -/
def joinWords (hi lo : Word) : Wide := hi ++ lo

/-- `add64`: addition modulo 2^64, the carry dropped (R7). -/
def add64 (p q : Word) : Word := p + q

/-- `wmul64`: the full 128-bit product of two 64-bit values (R7). -/
def wmul64 (p q : Word) : Wide := p.setWidth 128 * q.setWidth 128

/-- `mul128`: the product modulo 2^128 (R7). -/
def mul128 (p q : Wide) : Wide := p * q

/-- `shr64`: logical right shift (R7). -/
def shr64 (v : Word) (k : Nat) : Word := v >>> k

/-- `ror64`: rotate right, for 0 < k < 64 (R7). -/
def ror64 (v : Word) (k : Nat) : Word := shr64 v k ||| (v <<< (64 - k))

/-- Byte `k` of a value: bits `8k+7` down to `8k`. -/
def byteOf {n : Nat} (v : BitVec n) (k : Nat) : Byte := (v >>> (8 * k)).setWidth 8

/-- `LE128`: bytes read as a little-endian number, the first byte least significant (R7). -/
def le128 : List Byte → Wide
  | [] => 0#128
  | b :: bs => b.setWidth 128 ||| (le128 bs <<< 8)

/-- The sixteen bytes of a 128-bit value, byte 0 first. -/
def leBytes128 (v : Wide) : List Byte := (List.range 16).map (byteOf v)

/-- `le_bytes64`: the eight bytes of a 64-bit value, least significant first (R7). -/
def leBytes64 (x : Word) : List Byte := (List.range 8).map (byteOf x)

/-- `bswap128`: byte `j` of the result is byte `15 − j` of `v` (R7). -/
def bswap128 (v : Wide) : Wide := le128 (leBytes128 v).reverse

end Sys2Proof.Machine
end

