-- ==== Sys2Proof/Config.lean ====
section
/-! DEFINITION. The implementation parameters the spec leaves to the implementation (00_scope.md R5): the two
odd multipliers and the platform's `Writable`. They are plain data, so that a state can carry them and a
statement holds for every choice of them (log 1). The other parameters of R5 are fixed and stand as widths and
literals where they are used. Beside them the model's free values: constants without a body, of which nothing can be
proved. -/

namespace Sys2Proof

/-- A run of buffer addresses backed by writable memory: `first` to `last`, both included. -/
structure Region where
  first : Addr
  last  : Addr
deriving DecidableEq, Repr

/-- The configuration of a design and its platform (00_scope.md R5). -/
structure Config where
  /-- The multiplier of the draw, odd (00_scope.md R5; 41_next.md R90). -/
  m64 : Word
  /-- The multiplier of the integer expansion, odd (00_scope.md R5; 40_construction.md R73). -/
  m128 : Wide
  /-- The addresses the platform backs with writable memory (20_memory.md R35). -/
  writable : List Region
deriving DecidableEq, Repr

/-- `Writable(addr)` (20_memory.md R35). -/
def Config.isWritable (c : Config) (a : Addr) : Bool :=
  c.writable.any fun r => r.first ≤ a && a ≤ r.last

/-- The two constraints R5 puts on a configuration: `M64 mod 2 = 1` and `M128 mod 2 = 1`. -/
def Config.wellFormed (c : Config) : Bool :=
  c.m64.toNat % 2 == 1 && c.m128.toNat % 2 == 1

/-- The defaults of R5 for the multipliers (92_eei_decisions.md D12, D13; log 2).
DESIGN CHOICE (log 3): R5 leaves `Writable` open; here every address is writable. -/
def Config.default : Config :=
  { m64 := 0x487ED5110B4611A7#64
    m128 := 0x487ED5110B4611A62633145C06E0E689#128
    writable := [⟨0#64, 0xFFFFFFFFFFFFFFFF#64⟩] }

/-- FREE VALUE (log 18): `S` of an instance that is stuck on a FILL, where 20_memory.md R36 leaves it unspecified.
Applied to the counter `State.fresh`. -/
opaque Config.freeState : Nat → Wide

/-- FREE VALUE (log 18): the shift word of a FILL before its first draw; 10_state.md R20 says that it exists then,
and 43_fill.md R122 assigns it only at a draw. Applied to the counter `State.fresh`. -/
opaque Config.freeShift : Nat → Word

end Sys2Proof
end

