-- ==== Sys2Proof/Syntax.lean ====
section
/-! DEFINITION. The seven commands (30_encoding.md R54, one constructor per row of opcode_table.json) and the
lines of the textual syntax with their pseudo-commands (R61, R62). -/

namespace Sys2Proof

/-- The commands of the opcode map (30_encoding.md R54) with the operands R53 assembles; bits R56 calls
ignored are no operand. -/
inductive Instr where
  /-- `LOAD v`: construct from a raw state (40_construction.md R71). -/
  | load (v : Wide)
  /-- `SEED v`: construct from 16 seed bytes, `v = LE128 (b0 … b15)` (40_construction.md R72). -/
  | seed (v : Wide)
  /-- `SEEDU64 n`: construct from a 64-bit integer (40_construction.md R74). -/
  | seedu64 (n : Word)
  /-- `NEXT`: one scalar draw (41_next.md R91). -/
  | next
  /-- `SPLIT`: derive a child state from two draws (42_split.md R111). -/
  | split
  /-- `FILL base, len`: write `len` drawn bytes at `base` (43_fill.md R121). -/
  | fill (base : Addr) (len : Word)
  /-- `GET`: read the state (40_construction.md R76). -/
  | get
deriving DecidableEq, Repr

/-- One line of the textual syntax with its numbers as written (30_encoding.md R61), or a pseudo-command
(R62). -/
inductive Line where
  | load (v : Nat)
  | seed (v : Nat)
  | seedu64 (n : Nat)
  | next
  | split
  | fill (base len : Nat)
  | get
  /-- `SEEDB b0 b1 … b15`: the seed given as 16 bytes in order. -/
  | seedb (bytes : List Nat)
  /-- `NEXTN k`: `NEXT` repeated `k` times. -/
  | nextN (k : Nat)
  /-- `CLONE @dst <- @src`: GET on `src`, then LOAD of the DATA it returned on `dst`. -/
  | clone (dst src : Nat)
  /-- `SPLITTO @dst <- @src`: SPLIT on `src`, then LOAD of the DATA it returned on `dst`. -/
  | splitTo (dst src : Nat)
deriving DecidableEq, Repr

end Sys2Proof
end

