-- ==== Sys2Proof/WellFormed.lean ====
section
/-! DEFINITION. Which written terms the notation admits. An `Instr` holds operands of exactly the widths of
30_encoding.md R52, so every `Instr` is well-formed by its type; what can be ill-formed is a command word's
OP byte (R51, R55) and a line of the textual syntax, whose numbers are natural numbers (R61). -/

namespace Sys2Proof

/-- `OP[7:3]` must be zero (30_encoding.md R51). -/
def opReservedClear (op : Byte) : Bool := op >>> 3 == 0#8

/-- `OPC = 7` is reserved (30_encoding.md R54, R55). -/
def opAssigned (op : Byte) : Bool := op &&& 7#8 != 7#8

/-- The OP bytes that name a command: neither reserved nor illegal (30_encoding.md R55). -/
def opWellFormed (op : Byte) : Bool := opReservedClear op && opAssigned op

/-- Every term of `Instr` is well-formed: each operand has its field's width by type (30_encoding.md R52),
and R56 makes no operand value illegal. -/
def Instr.wellFormed : Instr → Bool
  | .load _ | .seed _ | .seedu64 _ | .next | .split | .fill _ _ | .get => true

/-- A line's numbers fit the fields they are written for (30_encoding.md R61: 128-bit `v`, 64-bit `n`, `base`
and `len`, sixteen seed bytes). -/
def Line.wellFormed : Line → Bool
  | .load v | .seed v => v < 2 ^ 128
  | .seedu64 n => n < 2 ^ 64
  | .fill base len => base < 2 ^ 64 && len < 2 ^ 64
  | .seedb bytes => bytes.length == 16 && bytes.all fun b => b < 256
  | .next | .split | .get | .nextN _ | .clone _ _ | .splitTo _ _ => true

end Sys2Proof
end

