-- ==== Sys2Proof/Decode.lean ====
section
/-! DEFINITION. Decoding and encoding of command words (30_encoding.md R50 to R56), their serialised form
(R59), and the decoder on words numbered as opcode_table.json numbers them. -/

namespace Sys2Proof

/-- Why a command word or a serialised command is refused. -/
inductive DecodeError where
  /-- `OP = 0x07`, reserved for future use (30_encoding.md R55). -/
  | reservedOpcode
  /-- `OP[7:3] ≠ 0` (30_encoding.md R55). -/
  | illegalOp
  /-- Fewer than the 17 bytes of a serialised command (30_encoding.md R59). -/
  | truncated
deriving DecidableEq, Repr

/-- `OP = CMD[135:128]` (30_encoding.md R50). -/
def opOf (w : CommandWord) : Byte := w.extractLsb' 128 8

/-- `ARG = CMD[127:0]` (30_encoding.md R50). -/
def argOf (w : CommandWord) : Wide := w.extractLsb' 0 128

/-- `N = ARG[63:0]`, layout A64 (30_encoding.md R52). -/
def argN (arg : Wide) : Word := arg.extractLsb' 0 64

/-- `LEN = ARG[63:0]`, layout AFILL (30_encoding.md R52). -/
def argLen (arg : Wide) : Word := arg.extractLsb' 0 64

/-- `BASE = ARG[127:64]`, layout AFILL (30_encoding.md R52). -/
def argBase (arg : Wide) : Addr := arg.extractLsb' 64 64

/-- The decoder: tests `OP[7:3] = 0`, then switches on `OP[2:0]`; ARG takes no part in selecting the command
(30_encoding.md R54). Decoding is the same in every state (R60), so it takes none. -/
def decode (w : CommandWord) : Except DecodeError Instr :=
  if opReservedClear (opOf w) then
    match ((opOf w).extractLsb' 0 3).toNat with
    | 0 => .ok (.load (argOf w))
    | 1 => .ok (.seed (argOf w))
    | 2 => .ok (.seedu64 (argN (argOf w)))
    | 3 => .ok .next
    | 4 => .ok .split
    | 5 => .ok (.fill (argBase (argOf w)) (argLen (argOf w)))
    | 6 => .ok .get
    | _ => .error .reservedOpcode
  else .error .illegalOp

/-- The OP byte of a command (30_encoding.md R54). -/
def opByte : Instr → Byte
  | .load _ => 0x00#8
  | .seed _ => 0x01#8
  | .seedu64 _ => 0x02#8
  | .next => 0x03#8
  | .split => 0x04#8
  | .fill _ _ => 0x05#8
  | .get => 0x06#8

/-- The ARG of a command, its ignored bits zero as hosts should send them (30_encoding.md R52, R56). -/
def argWord : Instr → Wide
  | .load v => v
  | .seed v => v
  | .seedu64 n => (0#64 ++ n : BitVec 128)
  | .next => 0#128
  | .split => 0#128
  | .fill base len => (base ++ len : BitVec 128)
  | .get => 0#128

/-- The canonical command word of a command (30_encoding.md R50, R54). -/
def encode (i : Instr) : CommandWord := opByte i ++ argWord i

/-- The canonical 17-byte serialisation of a command word: OP, then ARG little-endian (30_encoding.md R59). -/
def serialise (w : CommandWord) : List Byte := opOf w :: Machine.leBytes128 (argOf w)

/-- A command word read back from its serialised form, with the bytes that follow it (30_encoding.md R59). -/
def parseWord : List Byte → Except DecodeError (CommandWord × List Byte)
  | [] => .error .truncated
  | op :: bs =>
    if bs.length < 16 then .error .truncated
    else .ok (op ++ Machine.le128 (bs.take 16), bs.drop 16)

/-- The decoder on any bytes: the first serialised command and the rest, or a refusal by name. -/
def decodeBytes (bs : List Byte) : Except DecodeError (Instr × List Byte) :=
  match parseWord bs with
  | .error e => .error e
  | .ok (w, rest) =>
    match decode w with
    | .error e => .error e
    | .ok i => .ok (i, rest)

/-- The instruction the decoder reads from an instruction whose bits are `w`, numbered as opcode_table.json
numbers them: a command is ONE 136-bit word, bit 0 the least significant of it, so `OP` is bits 135:128 (the
table's own notes). Bits at and above `nbits` are zero. -/
def decodeTableWord (nbits w : Nat) : Option Instr :=
  match decode (BitVec.ofNat 136 (w % 2 ^ nbits)) with
  | .ok i => some i
  | .error _ => none

end Sys2Proof
end

