-- ==== Sys2Proof/Machine/Mix.lean ====
section
/-! DEFINITION. The pure functions named across the spec (00_scope.md R9): `ZeroFix`, `FromU64`, `Next` with its
parts `T` and `Out`, `SplitOf`, `FillBytes`; and the two iterator forms of the bulk fill (43_fill.md R122, R125).
The multipliers are arguments. -/

namespace Sys2Proof.Machine

/-- `ZeroFix(v)`: flips the low bit only when `v` is zero (40_construction.md R70). -/
def zeroFix (v : Wide) : Wide := v ^^^ (if v = 0#128 then 1#128 else 0#128)

/-- `FromU64(n)`: three multiplies and two byte reversals from `n ‖ 1` (40_construction.md R73). -/
def fromU64 (m128 : Wide) (n : Word) : Wide :=
  let s0 := joinWords n 1#64
  let s1 := bswap128 (mul128 s0 m128)
  let s2 := bswap128 (mul128 s1 m128)
  mul128 s2 m128

/-- `T(s)`: the next state `d ‖ c`; the multiplier takes no part in it (41_next.md R90). -/
def nextState (s : Wide) : Wide :=
  let a := lo64 s
  let b := hi64 s
  let c := ror64 a 7 ^^^ b
  let d := a ^^^ shr64 a 19
  joinWords d c

/-- `Out(s)`: the 64-bit output, computed from the old words (41_next.md R90). -/
def nextOut (m64 : Word) (s : Wide) : Word :=
  let a := lo64 s
  let t := wmul64 (hi64 s) m64
  a ^^^ add64 (lo64 t) (hi64 t)

/-- `Next(s) = (T(s), Out(s))` (41_next.md R90). -/
def nextPair (m64 : Word) (s : Wide) : Wide × Word := (nextState s, nextOut m64 s)

/-- `SplitOf(s)`: the parent after two draws, and the child with the first draw in the low word
(42_split.md R110). -/
def splitOf (m64 : Word) (s : Wide) : Wide × Wide :=
  let (s', x0) := nextPair m64 s
  let (s'', x1) := nextPair m64 s'
  (s'', zeroFix (joinWords x1 x0))

/-- `n` draws in a row: the state after them and their outputs, first draw first (43_fill.md R120). -/
def draws (m64 : Word) : Nat → Wide → Wide × List Word
  | 0, s => (s, [])
  | n + 1, s =>
    let (s', x) := nextPair m64 s
    let (s'', xs) := draws m64 n s'
    (s'', x :: xs)

/-- `ceil(L / 8)`, the number of draws a fill of `L` bytes takes (43_fill.md R120). -/
def drawCount (L : Nat) : Nat := (L + 7) / 8

/-- `FillBytes(s, L)`: the state after `ceil(L/8)` draws and the first `L` bytes of their little-endian
concatenation (43_fill.md R120). -/
def fillBytes (m64 : Word) (s : Wide) (L : Nat) : Wide × List Byte :=
  let r := draws m64 (drawCount L) s
  (r.1, (r.2.flatMap leBytes64).take L)

/-- The tail loop of 43_fill.md R122: the low byte of the shift word, which then moves right by eight bits. -/
def tailBytes : Nat → Word → List Byte
  | 0, _ => []
  | k + 1, w => byteOf w 0 :: tailBytes k (shr64 w 8)

/-- The tail of 43_fill.md R122: one more draw when 1 to 7 bytes remain. -/
def fillTail (m64 : Word) (s : Wide) (k : Nat) : Wide × List Byte :=
  if k = 0 then (s, [])
  else
    let (s', w) := nextPair m64 s
    (s', tailBytes k w)

/-- The body of 43_fill.md R122 with beats of eight bytes (`passes` whole draws), then the tail. -/
def fillBeats8 (m64 : Word) : (passes : Nat) → Wide → (rest : Nat) → Wide × List Byte
  | 0, s, k => fillTail m64 s k
  | n + 1, s, k =>
    let (s', x) := nextPair m64 s
    let (s'', bs) := fillBeats8 m64 n s' k
    (s'', leBytes64 x ++ bs)

/-- The reference iterator of 43_fill.md R122. -/
def fillIter8 (m64 : Word) (s : Wide) (L : Nat) : Wide × List Byte :=
  fillBeats8 m64 (L / 8) s (L % 8)

/-- The body of an implementation with beats of sixteen bytes (43_fill.md R125): two draws a pass, low word
first; then one more whole draw if eight bytes or more remain; then the tail with one draw. -/
def fillBeats16 (m64 : Word) : (passes : Nat) → Wide → (rest : Nat) → Wide × List Byte
  | 0, s, k => if 8 ≤ k then fillBeats8 m64 1 s (k - 8) else fillTail m64 s k
  | n + 1, s, k =>
    let (s1, x0) := nextPair m64 s
    let (s2, x1) := nextPair m64 s1
    let (s', bs) := fillBeats16 m64 n s2 k
    (s', leBytes64 x0 ++ leBytes64 x1 ++ bs)

/-- The iterator with `FILL_GRAN = 16` (43_fill.md R125). -/
def fillIter16 (m64 : Word) (s : Wide) (L : Nat) : Wide × List Byte :=
  fillBeats16 m64 (L / 16) s (L % 16)

end Sys2Proof.Machine
end

