-- ==== Sys2Proof/Machine/State.lean ====
section
/-! DEFINITION. The state of a system of firefly128 instances over one buffer memory (10_state.md, 60_exceptions.md
R150), as plain data, and its value after reset (10_state.md R22). -/

namespace Sys2Proof.Machine

/-- Why the machine stops. -/
inductive Fault where
  /-- Raised by FILL when its buffer holds an address that is not `Writable`: the spec gives the command no step
  and no response (20_memory.md R36). The port answers it by leaving that instance stuck, so that no step of the
  system ends in it (log 10). Safe: the command does less than any block might. -/
  | bufferNotWritable
  /-- Raised by the landing of an outside write at an address that is not `Writable`, of which the spec says
  nothing (log 12). Safe: the model stops where a platform may go on. -/
  | externNotWritable
deriving DecidableEq, Repr

/-- Why an instruction has no meaning. -/
inductive Refusal where
  /-- Raised by an arm of `exec` that has no meaning yet. Safe: the model stops. No arm of this model raises it. -/
  | notModelled (mnemonic : String)
deriving DecidableEq, Repr

/-- The STATUS of a response (60_exceptions.md R141). -/
inductive Status where
  | ok
  | eIllegal
  | eNoState
  | eZero
  | eRange
deriving DecidableEq, Repr

/-- One response as it leaves a port: the port's number, STATUS and DATA (30_encoding.md R57). -/
structure Response where
  port   : Nat
  status : Status
  data   : Wide
deriving DecidableEq, Repr

/-- A FILL in progress (10_state.md R20, 43_fill.md R122): the buffer; `gen`, what the iterator has made of `S` so
far, which the register takes over when the command ends (00_scope.md R8; log 7); how many bytes have been written;
and the shift word. -/
structure FillJob where
  base : Addr
  len  : Word
  gen  : Wide
  i    : Nat
  w    : Word
deriving DecidableEq, Repr

/-- The FILL an instance is stuck on, its buffer not wholly writable (20_memory.md R36; log 10). -/
structure StuckFill where
  base : Addr
  len  : Word
deriving DecidableEq, Repr

/-- What can land on the machine from outside between two of its own steps (log 8, log 9). -/
inductive Event where
  /-- The host presents a command word at port `k` (30_encoding.md R50, 70_reset_and_hazards.md R162). -/
  | present (k : Nat) (w : CommandWord)
  /-- The reset of instance `k` is applied (70_reset_and_hazards.md R160). `accepted` says whether the instance, if
  it has no FILL in progress, had just accepted the oldest command held at its port: that command is then the one
  in progress. -/
  | reset (k : Nat) (accepted : Bool)
  /-- An agent that is no instance of the block writes a byte of buffer memory (20_memory.md R38, R45). -/
  | externWrite (a : Addr) (b : Byte)
  /-- Instance `k` runs on for at most `p` moves before the next event lands, each byte write of a FILL one move and
  its response one more (20_memory.md R37, R38). -/
  | advance (k : Nat) (p : Nat)
deriving DecidableEq, Repr

/-- The state. Tables are keyed by port number (`gens`, `jobs`, `stuck`) or address (`mem`), keys strictly rising. -/
structure State where
  /-- The configuration, which no step writes (00_scope.md R5, 10_state.md R17; log 1). -/
  cfg : Config
  /-- `S` of every instance with `VALID = 1`; an instance that is not listed has `VALID = 0` and no `S`
  (10_state.md R10, R12; log 4). -/
  gens : List (Nat × Wide)
  /-- The fills in progress, by instance (10_state.md R20). -/
  jobs : List (Nat × FillJob)
  /-- The instances stuck on a FILL with no defined completion (20_memory.md R36; log 10). -/
  stuck : List (Nat × StuckFill)
  /-- Buffer memory: the bytes with a known value (20_memory.md R30; log 6). -/
  mem : List Host.Cell
  /-- Commands presented and held at the ports, oldest first (70_reset_and_hazards.md R162). -/
  commands : List (Nat × CommandWord)
  /-- Responses delivered, oldest first; the host's record, which no step reads (30_encoding.md R57; log 8). -/
  responses : List Response
  /-- The model's own: what lands from outside before the ports are served, next first (log 8). -/
  inputs : List Event
  /-- The model's own: the port of the command being executed (log 8). -/
  cur : Nat
  /-- The model's own: how many times an instance has begun something, the argument of the free values (log 18). -/
  fresh : Nat
deriving DecidableEq, Repr

/-- After reset: every instance has `VALID = 0` and no `S`, no FILL is in progress, the multipliers are their
configured constants (10_state.md R22), and nothing has been presented, written or answered. The counter of the free
values starts at 0 (DESIGN CHOICE, log 18: no statement rests on it). -/
def State.reset : State :=
  { cfg := Config.default
    gens := []
    jobs := []
    stuck := []
    mem := []
    commands := []
    responses := []
    inputs := []
    cur := 0
    fresh := 0 }

end Sys2Proof.Machine
end

