-- ==== Sys2Proof/Machine/Table.lean ====
section
/-! DEFINITION. Plain-data tables: lists of (key, value) pairs in one canonical form, keys strictly rising. The
state keeps the generators and the fills in progress by port number, and buffer memory by address, in such
tables; a key that is not listed has no value. -/

namespace Sys2Proof.Machine

/-- The value a table lists for `k`, if any. -/
def lookupKey {α : Type} (k : Nat) : List (Nat × α) → Option α
  | [] => none
  | c :: t => if c.1 = k then some c.2 else lookupKey k t

/-- The table with `k` listed as `v`. -/
def insertKey {α : Type} (k : Nat) (v : α) : List (Nat × α) → List (Nat × α)
  | [] => [(k, v)]
  | c :: t =>
    if k < c.1 then (k, v) :: c :: t
    else if k = c.1 then (k, v) :: t
    else c :: insertKey k v t

/-- The table with `k` not listed. -/
def eraseKey {α : Type} (k : Nat) (t : List (Nat × α)) : List (Nat × α) :=
  t.filter fun c => c.1 != k

/-- The canonical form of a table: keys strictly rising (hence no repeats). -/
abbrev tableWf {α : Type} (t : List (Nat × α)) : Prop := t.Pairwise fun c d => c.1 < d.1

/-- The canonical form of buffer memory: addresses strictly rising and within the 64-bit space (20_memory.md
R30). An unlisted address reads as no value, so every listed byte belongs. -/
abbrev Memory.wf (m : List Host.Cell) : Prop := tableWf m ∧ ∀ c ∈ m, c.1 < 2 ^ 64

end Sys2Proof.Machine
end

