-- ==== Sys2Proof/Machine/Ops.lean ====
section
/-! DEFINITION. The named operations over the generators, the fills in progress, buffer memory and the responses,
and the one operation that refuses a command with an error response (60_exceptions.md R140). -/

namespace Sys2Proof.Machine

/-- What a step or a meaning answers. -/
abbrev Answer := Host.Outcome State Fault Refusal

/-- `S` of instance `k`, `none` while its `VALID` is 0 (10_state.md R12). -/
def State.genOf (s : State) (k : Nat) : Option Wide := lookupKey k s.gens

/-- Instance `k` holds the generator state `v` with `VALID = 1`: every write replaces all 128 bits
(10_state.md R10). -/
def State.setGen (s : State) (k : Nat) (v : Wide) : State := { s with gens := insertKey k v s.gens }

/-- The FILL in progress on instance `k`, if any (10_state.md R20). -/
def State.jobOf (s : State) (k : Nat) : Option FillJob := lookupKey k s.jobs

/-- Instance `k` holds the iterator `j`. -/
def State.setJob (s : State) (k : Nat) (j : FillJob) : State := { s with jobs := insertKey k j s.jobs }

/-- The iterator of instance `k` ceases to exist (10_state.md R20). -/
def State.dropJob (s : State) (k : Nat) : State := { s with jobs := eraseKey k s.jobs }

/-- The FILL instance `k` is stuck on, if it is (20_memory.md R36). -/
def State.stuckOf (s : State) (k : Nat) : Option StuckFill := lookupKey k s.stuck

/-- The byte of buffer memory at `a`; `none` where it has no known value: nothing has written it, or a stuck FILL may
have (log 6, log 10). No step of the block reads memory (20_memory.md R31): this is the host's view. -/
def State.readByte (s : State) (a : Addr) : Option Byte := lookupKey a.toNat s.mem

/-- Buffer memory with byte `b` written at `a`. -/
def memWrite (a : Addr) (b : Byte) (m : List Host.Cell) : List Host.Cell := insertKey a.toNat b m

/-- Consecutive byte writes in increasing address order, the first byte lowest: `MemWrite` and the loop of FILL
(20_memory.md R32, R37). -/
def memWriteBytes (a : Addr) : List Byte → List Host.Cell → List Host.Cell
  | [], m => m
  | b :: bs, m => memWriteBytes (a + 1#64) bs (memWrite a b m)

/-- Buffer memory with the first `n` bytes from `base` on left without a known value. -/
def memForget (base : Addr) : Nat → List Host.Cell → List Host.Cell
  | 0, m => m
  | n + 1, m => memForget base n (eraseKey (base + BitVec.ofNat 64 n).toNat m)

/-- The state with one byte written. -/
def State.writeByte (s : State) (a : Addr) (b : Byte) : State := { s with mem := memWrite a b s.mem }

/-- The state with consecutive bytes written. -/
def State.writeBytes (s : State) (a : Addr) (bs : List Byte) : State :=
  { s with mem := memWriteBytes a bs s.mem }

/-- The 8-bit code of a STATUS (60_exceptions.md R141). -/
def Status.code : Status → Byte
  | .ok => 0x00#8
  | .eIllegal => 0x01#8
  | .eNoState => 0x02#8
  | .eZero => 0x03#8
  | .eRange => 0x04#8

/-- The 136-bit response word: STATUS over DATA (30_encoding.md R57). -/
def Response.word (r : Response) : BitVec 136 := r.status.code ++ r.data

/-- A response leaves the port of the command being executed. -/
def State.answer (s : State) (st : Status) (d : Wide) : State :=
  { s with responses := s.responses ++ [{ port := s.cur, status := st, data := d }] }

/-- `respond(data)`: the command ends with STATUS OK and the DATA given (00_scope.md R8). -/
def respond (d : Wide) (s : State) : Answer := .next (s.answer .ok d)

/-- `raise E`: the command ends with the error's STATUS and DATA zero, and nothing else changes
(60_exceptions.md R140). There is no handler and nothing to return from (R144). -/
def raise (e : Status) (s : State) : Answer := .next (s.answer e 0#128)

/-- Port `k` takes up a command, the held commands being `rest` without it. -/
def State.accept (s : State) (k : Nat) (rest : List (Nat × CommandWord)) : State :=
  { s with cur := k, commands := rest, fresh := s.fresh + 1 }

/-- The reset of instance `k`: `VALID <- 0`, the iterator gone, and no command in progress or stuck; memory and the
other instances are not touched (70_reset_and_hazards.md R160). -/
def State.resetInstance (s : State) (k : Nat) : State :=
  { s with gens := eraseKey k s.gens, jobs := eraseKey k s.jobs, stuck := eraseKey k s.stuck }

end Sys2Proof.Machine
end

