-- ==== Sys2Proof/Machine/Flags.lean ====
section
/-! DEFINITION. The one flag, `VALID` (10_state.md R12, R16), and the STATUS of a command's state check
(60_exceptions.md R142 (2)). There is no arithmetic condition code. -/

namespace Sys2Proof.Machine

/-- `VALID` of instance `k` (10_state.md R12). -/
def State.validOf (s : State) (k : Nat) : Bool := (s.genOf k).isSome

/-- `if VALID = 0 then raise E_NOSTATE`: the rest of the command is given `S` of the instance it executes on
(40_construction.md R76, 41_next.md R91, 42_split.md R111, 43_fill.md R121). -/
def withGen (s : State) (rest : Wide → Answer) : Answer :=
  match s.genOf s.cur with
  | none => raise .eNoState s
  | some g => rest g

end Sys2Proof.Machine
end

