-- ==== Sys2Proof/Machine/Operands.lean ====
section
/-! DEFINITION. The operand forms beyond a bare field (30_encoding.md R53): the buffer `BASE`, `LEN` of FILL with
its range and its writability, and the operand checks of 60_exceptions.md R142 (3). -/

namespace Sys2Proof.Machine

/-- Buffer position `j` is address `BASE + j` (20_memory.md R30). -/
def bufferAddr (base : Addr) (j : Nat) : Addr := base + BitVec.ofNat 64 j

/-- `BASE + LEN > 2^64`, computed on naturals without wrapping (43_fill.md R121). -/
def bufferWraps (base : Addr) (len : Word) : Bool := 2 ^ 64 < base.toNat + len.toNat

/-- `∀ j < n, Writable(BASE + j)` (20_memory.md R35). -/
def bufferWritable (c : Config) (base : Addr) : Nat → Bool
  | 0 => true
  | n + 1 => bufferWritable c base n && c.isWritable (bufferAddr base n)

/-- How many positions of a buffer of `n` lie before the first that is not writable: the "earlier addresses" of
20_memory.md R36. -/
def writableReach (c : Config) (base : Addr) : Nat → Nat
  | 0 => 0
  | n + 1 =>
    let k := writableReach c base n
    if k = n ∧ c.isWritable (bufferAddr base n) then n + 1 else k

/-- The operand check of LOAD: `if V = 0 then raise E_ZERO` (40_construction.md R71). -/
def withNonZero (v : Wide) (s : State) (rest : Answer) : Answer :=
  if v = 0#128 then raise .eZero s else rest

/-- The checks of FILL in their order: E_NOSTATE, then E_RANGE (60_exceptions.md R142); and no step when the
buffer is not wholly writable (20_memory.md R36; log 10). -/
def withBuffer (base : Addr) (len : Word) (s : State) (rest : Wide → Answer) : Answer :=
  withGen s fun g =>
    if bufferWraps base len then raise .eRange s
    else if bufferWritable s.cfg base len.toNat then rest g
    else .fault .bufferNotWritable

end Sys2Proof.Machine
end

