-- ==== Sys2Proof/Machine/Construct.lean ====
section
/-! DEFINITION. The constructors LOAD, SEED, SEEDU64 and the state read GET (40_construction.md). -/

namespace Sys2Proof.Machine

/-- `S <- v; VALID <- 1; respond(0)`: what every successful constructor does (40_construction.md R71, R72, R74),
whatever the instance held before (70_reset_and_hazards.md R164). -/
def construct (v : Wide) (s : State) : Answer := respond 0#128 (s.setGen s.cur v)

/-- LOAD (40_construction.md R71). -/
def execLoad (v : Wide) (s : State) : Answer := withNonZero v s (construct v s)

/-- SEED (40_construction.md R72). -/
def execSeed (v : Wide) (s : State) : Answer := construct (zeroFix v) s

/-- SEEDU64 (40_construction.md R74). -/
def execSeedU64 (n : Word) (s : State) : Answer := construct (fromU64 s.cfg.m128 n) s

/-- GET (40_construction.md R76). -/
def execGet (s : State) : Answer := withGen s fun g => respond g s

end Sys2Proof.Machine
end

