-- ==== Sys2Proof/Machine/Draw.lean ====
section
/-! DEFINITION. The scalar draw NEXT (41_next.md) and the split SPLIT (42_split.md). -/

namespace Sys2Proof.Machine

/-- NEXT: DATA is the draw zero-extended, `S` the next state (41_next.md R91); no zero check (R95). -/
def execNext (s : State) : Answer :=
  withGen s fun g =>
    let r := nextPair s.cfg.m64 g
    respond (r.2.setWidth 128) (s.setGen s.cur r.1)

/-- SPLIT: `S` advances by two draws and DATA is the child state, which the block does not keep
(42_split.md R111). -/
def execSplit (s : State) : Answer :=
  withGen s fun g =>
    let r := splitOf s.cfg.m64 g
    respond r.2 (s.setGen s.cur r.1)

end Sys2Proof.Machine
end

