-- ==== Sys2Proof/Machine/Fill.lean ====
section
/-! DEFINITION. The bulk fill FILL (43_fill.md): the whole command; the same command run a number of moves at a time
through its iterator (10_state.md R20, 43_fill.md R122), for when something from outside lands while it is in
progress (20_memory.md R37, R45; 70_reset_and_hazards.md R160, R165); and the instance left stuck by a FILL over
memory that is not writable (20_memory.md R36). -/

namespace Sys2Proof.Machine

/-- FILL (43_fill.md R121): the checks, then `LEN` byte writes at `BASE` in increasing order, then
`S <- s_n`. -/
def execFill (base : Addr) (len : Word) (s : State) : Answer :=
  withBuffer base len s fun g =>
    let r := fillBytes s.cfg.m64 g len.toNat
    respond 0#128 ((s.writeBytes base r.2).setGen s.cur r.1)

/-- What the iterator works on: its own `S`, the byte offset, the shift word and memory. -/
structure FillRun where
  gen : Wide
  i   : Nat
  w   : Word
  mem : List Host.Cell
deriving DecidableEq, Repr

/-- The word the next byte is taken from: a fresh draw at every eighth byte, else the shift word, which is the current
draw as 10_state.md R20 has it (43_fill.md R122). -/
def fillWord (m64 : Word) (r : FillRun) : Wide × Word :=
  if r.i % 8 = 0 then nextPair m64 r.gen else (r.gen, r.w)

/-- How many bytes of a FILL of `len` its body writes, eight a draw; the bytes after them are the tail
(43_fill.md R122). -/
def bodyBytes (len : Nat) : Nat := 8 * (len / 8)

/-- The byte written at offset `i` from the current draw's word, and the word afterwards. In the body the word stays
and byte `i mod 8` of it is written (`MemWrite(BASE + i, 8, x)` by its byte writes, 20_memory.md R32); in the tail
the low byte is written and the word moves right by eight bits (43_fill.md R122, 10_state.md R20). -/
def takeByte (len i : Nat) (w : Word) : Byte × Word :=
  if i < bodyBytes len then (byteOf w (i % 8), w) else (byteOf w 0, shr64 w 8)

/-- One byte write of the iterator of a FILL of `len` bytes: a byte goes to `BASE + i` and the offset up by one
(43_fill.md R122, with the whole-draw write taken as its eight byte writes, 20_memory.md R32, R34; log 7). -/
def fillByte (m64 : Word) (base : Addr) (len : Nat) (r : FillRun) : FillRun :=
  let (g, w) := fillWord m64 r
  let (b, w') := takeByte len r.i w
  { gen := g
    i := r.i + 1
    w := w'
    mem := memWrite (bufferAddr base r.i) b r.mem }

/-- `n` byte writes of the iterator of a FILL of `len` bytes. -/
def fillRun (m64 : Word) (base : Addr) (len : Nat) : Nat → FillRun → FillRun
  | 0, r => r
  | n + 1, r => fillRun m64 base len n (fillByte m64 base len r)

/-- The FILL `j` of the instance being executed runs on for at most `p` moves: its byte writes, then its response.
With the response the command ends: `S` takes the iterator's value and the iterator is gone (00_scope.md R8,
20_memory.md R38). Until then the register is as it was and the iterator stays, also when every byte is written and
the response is still to come (70_reset_and_hazards.md R160, R165). With `VALID = 0` there is no FILL to run on
(log 7). -/
def runJob (p : Nat) (j : FillJob) (s : State) : Answer :=
  match s.genOf s.cur with
  | none => .next (s.dropJob s.cur)
  | some _ =>
    let left := j.len.toNat - j.i
    let r := fillRun s.cfg.m64 j.base j.len.toNat (min p left) { gen := j.gen, i := j.i, w := j.w, mem := s.mem }
    let s' := { s with mem := r.mem }
    if left < p then respond 0#128 ((s'.setGen s.cur r.gen).dropJob s.cur)
    else .next (s'.setJob s.cur { j with gen := r.gen, i := r.i, w := r.w })

/-- A FILL begins and runs for at most `p` moves: the checks of 43_fill.md R121, then the iterator of R122 from
`i = 0`. The shift word is a free value until the first draw: R20 has it exist from the start, R122 assigns it only
at a draw, and no byte is taken from it before (log 18). -/
def startFill (p : Nat) (base : Addr) (len : Word) (s : State) : Answer :=
  withBuffer base len s fun g =>
    runJob p { base := base, len := len, gen := g, i := 0, w := Config.freeShift s.fresh } s

/-- The instance being executed is stuck on the FILL `f`: no response, and what it has done "to `S` and to earlier
addresses" is unspecified (20_memory.md R36). So `S` is a free value, non-zero as 10_state.md R13 has every `S`
(log 18), and the addresses of the buffer before the first that is not writable have no known value (log 10). -/
def State.stick (s : State) (f : StuckFill) : State :=
  { s with
    gens := insertKey s.cur (zeroFix (Config.freeState s.fresh)) s.gens
    stuck := insertKey s.cur f s.stuck
    mem := memForget f.base (writableReach s.cfg f.base f.len.toNat) s.mem }

end Sys2Proof.Machine
end

