-- ==== Sys2Proof/Machine/Dispatch.lean ====
section
/-! DEFINITION. The dispatch of the seven commands (30_encoding.md R54) to their meanings. -/

namespace Sys2Proof.Machine

def exec (i : Instr) (s : State) : Host.Outcome State Fault Refusal :=
  match i with
  | .load v => Sys2Proof.Machine.execLoad v s
  | .seed v => Sys2Proof.Machine.execSeed v s
  | .seedu64 n => Sys2Proof.Machine.execSeedU64 n s
  | .next => Sys2Proof.Machine.execNext s
  | .split => Sys2Proof.Machine.execSplit s
  | .fill base len => Sys2Proof.Machine.execFill base len s
  | .get => Sys2Proof.Machine.execGet s

end Sys2Proof.Machine
end

