-- ==== Sys2Proof/Machine/Port.lean ====
section
/-! DEFINITION. The command ports (30_encoding.md R50, R63; 70_reset_and_hazards.md R162): how a command word is
executed, what lands from outside, and what the machine does when nothing lands. -/

namespace Sys2Proof.Machine

/-- A command word is executed whole: its command, or `raise E_ILLEGAL` with ARG not examined
(30_encoding.md R55; first in the order of 60_exceptions.md R142). -/
def execWord (w : CommandWord) (s : State) : Answer :=
  match decode w with
  | .ok i => exec i s
  | .error _ => raise .eIllegal s

/-- A command word is accepted and runs for at most `p` moves: only a FILL can be found half-way; every other
command takes effect at once (00_scope.md R8, 92_eei_decisions.md D21; log 9). -/
def startWord (p : Nat) (w : CommandWord) (s : State) : Answer :=
  match decode w with
  | .ok (.fill base len) => startFill p base len s
  | .ok i => exec i s
  | .error _ => raise .eIllegal s

/-- What the port makes of the answer `a` of the command word `w` taken up in `s`: a FILL with no step leaves its own
instance stuck (20_memory.md R36), and no other instance depends on it (60_exceptions.md R150; log 10). -/
def settle (w : CommandWord) (s : State) (a : Answer) : Answer :=
  match a with
  | .fault .bufferNotWritable =>
    match decode w with
    | .ok (.fill base len) => .next (s.stick { base := base, len := len })
    | _ => a
  | _ => a

/-- The oldest held command at a port that is `ready`, and the held commands without it. -/
def takeCommand (ready : Nat → Bool) :
    List (Nat × CommandWord) → Option ((Nat × CommandWord) × List (Nat × CommandWord))
  | [] => none
  | c :: cs =>
    if ready c.1 then some (c, cs)
    else match takeCommand ready cs with
      | none => none
      | some (d, rest) => some (d, c :: rest)

/-- Instance `k` runs on for at most `p` moves: with its FILL in progress, else with the oldest command held at its
port (70_reset_and_hazards.md R162); with neither it is idle (60_exceptions.md R148). Stuck on a FILL it makes no
step, and what it does to its `S` and to the earlier addresses is again unspecified (20_memory.md R36; log 10). -/
def advance (k p : Nat) (s : State) : Answer :=
  match s.stuckOf k with
  | some f => .next ((s.accept k s.commands).stick f)
  | none =>
    match s.jobOf k with
    | some j => runJob p j { s with cur := k }
    | none =>
      match takeCommand (· == k) s.commands with
      | some (c, rest) => settle c.2 (s.accept k rest) (startWord p c.2 (s.accept k rest))
      | none => .next s

/-- Whether instance `k` has a command in progress: a FILL, or one it is stuck on. -/
def State.busy (s : State) (k : Nat) : Bool := (s.jobOf k).isSome || (s.stuckOf k).isSome

/-- The commands held once the command in progress on instance `k` is abandoned by a reset: a FILL in progress or
stuck is no held command any more; with none, the command it had just accepted is the oldest one held at its port
(70_reset_and_hazards.md R160; log 11). -/
def heldAfterAbandon (k : Nat) (s : State) : List (Nat × CommandWord) :=
  if s.busy k then s.commands
  else match takeCommand (· == k) s.commands with
    | some (_, rest) => rest
    | none => s.commands

/-- The reset of instance `k` while it is idle or while a command is in progress: that command is abandoned without
a response, and the commands still held at the port stay held (70_reset_and_hazards.md R160, R162; log 11). -/
def applyReset (k : Nat) (accepted : Bool) (s : State) : State :=
  { s.resetInstance k with commands := if accepted then heldAfterAbandon k s else s.commands }

/-- What an event from outside does when it lands. A presented command is held at its port, in order, until the
instance is idle (70_reset_and_hazards.md R162). -/
def land (e : Event) (s : State) : Answer :=
  match e with
  | .present k w => .next { s with commands := s.commands ++ [(k, w)] }
  | .reset k accepted => .next (applyReset k accepted s)
  | .externWrite a b => if s.cfg.isWritable a then .next (s.writeByte a b) else .fault .externNotWritable
  | .advance k p => advance k p s

/-- What the machine does when nothing lands: a FILL in progress runs to its end, else the oldest command held at a
port whose instance is not stuck is executed whole, else the machine is idle (70_reset_and_hazards.md R162, R167,
60_exceptions.md R148). DESIGN CHOICE (log 8): of several fills in progress the lowest port's goes first, and of
several ports the one with the oldest command. -/
def serve (s : State) : Answer :=
  match s.jobs with
  | (k, j) :: _ => runJob (j.len.toNat + 1) j { s with cur := k }
  | [] =>
    match takeCommand (fun k => (s.stuckOf k).isNone) s.commands with
    | some (c, rest) => settle c.2 (s.accept c.1 rest) (execWord c.2 (s.accept c.1 rest))
    | none => .next s

/-- One step: the next event lands, or the ports are served. -/
def stepOnce (s : State) : Answer :=
  match s.inputs with
  | e :: es => land e { s with inputs := es }
  | [] => serve s

/-- The state with command word `w` next to be executed by the very next step, at the port `cur`: it is the
oldest held command, nothing lands before it, no FILL is in progress and the instance is not stuck (log 14). -/
def State.placeCommand (s : State) (w : CommandWord) : State :=
  { s with inputs := [], jobs := [], stuck := eraseKey s.cur s.stuck, commands := (s.cur, w) :: s.commands }

end Sys2Proof.Machine
end

