-- ==== Sys2Proof/Machine/Step.lean ====
section
/-! DEFINITION. The step of the machine, and the state in which a given instruction is the next to run. -/

namespace Sys2Proof.Machine

/-- One step of the machine (see `stepOnce`). -/
def step (s : State) : Host.Outcome State Fault Refusal := stepOnce s

/-- `s` with the command word whose bits are `w` (those at and above `nbits` zero) next to be executed. -/
def State.withFetchWord (s : State) (nbits w : Nat) : State :=
  s.placeCommand (BitVec.ofNat 136 (w % 2 ^ nbits))

end Sys2Proof.Machine
end

