-- ==== Sys2Proof/Machine/Pseudo.lean ====
section
/-! DEFINITION. What the host does with a line of the textual syntax (30_encoding.md R61) and with the
pseudo-commands (R62): it issues commands one at a time, each after the previous response (R63). -/

namespace Sys2Proof.Machine

/-- The command `i` delivered to port `k` and executed (30_encoding.md R51, R63). -/
def execAt (k : Nat) (i : Instr) (s : State) : Answer := exec i { s with cur := k }

/-- What the host does after a command has been answered. -/
def afterAnswer (a : Answer) (f : State → Answer) : Answer :=
  match a with
  | .next t => f t
  | .fault r => .fault r
  | .refused r => .refused r

/-- The DATA of the last response. -/
def lastData (s : State) : Wide :=
  match s.responses.getLast? with
  | some r => r.data
  | none => 0#128

/-- A list of commands issued in order at port `k`; a refusal does not stop the list (30_encoding.md R63). -/
def execAll (k : Nat) : List Instr → State → Answer
  | [], s => .next s
  | i :: is, s => afterAnswer (execAt k i s) (execAll k is)

/-- `NEXTN n` at port `k` (30_encoding.md R62). -/
def execNextN (k n : Nat) (s : State) : Answer := execAll k (List.replicate n .next) s

/-- `CLONE @dst <- @src` (30_encoding.md R62). DESIGN CHOICE (log 17): a GET that is refused does not stop the host,
which then issues the LOAD of the DATA it returned, zero, and that LOAD is refused with E_ZERO. -/
def execClone (dst src : Nat) (s : State) : Answer :=
  afterAnswer (execAt src .get s) fun t => execAt dst (.load (lastData t)) t

/-- `SPLITTO @dst <- @src` (30_encoding.md R62; 60_exceptions.md R151). DESIGN CHOICE (log 17): a SPLIT that is
refused does not stop the host, which then issues the LOAD of the DATA it returned, zero, and that LOAD is refused
with E_ZERO. -/
def execSplitTo (dst src : Nat) (s : State) : Answer :=
  afterAnswer (execAt src .split s) fun t => execAt dst (.load (lastData t)) t

/-- `SEEDB`: the operand of the SEED it stands for (30_encoding.md R62). -/
def seedOperand (bytes : List Nat) : Wide := le128 (bytes.map (BitVec.ofNat 8))

/-- A line issued at port `k`; `none` for a line whose numbers do not fit their fields (30_encoding.md R61; log 16).
DESIGN CHOICE (log 20): CLONE and SPLITTO name both their instances themselves (30_encoding.md R62, 60_exceptions.md
R151), and `k`, the prefix of such a line or the default, has no part in them. -/
def execLine (k : Nat) (l : Line) (s : State) : Option Answer :=
  if l.wellFormed then
    some <| match l with
      | .load v => execAt k (.load (BitVec.ofNat 128 v)) s
      | .seed v => execAt k (.seed (BitVec.ofNat 128 v)) s
      | .seedu64 n => execAt k (.seedu64 (BitVec.ofNat 64 n)) s
      | .next => execAt k .next s
      | .split => execAt k .split s
      | .fill base len => execAt k (.fill (BitVec.ofNat 64 base) (BitVec.ofNat 64 len)) s
      | .get => execAt k .get s
      | .seedb bytes => execAt k (.seed (seedOperand bytes)) s
      | .nextN n => execNextN k n s
      | .clone dst src => execClone dst src s
      | .splitTo dst src => execSplitTo dst src s
  else none

end Sys2Proof.Machine
end

