-- ==== Sys2Proof/Safety.lean ====
section
/-! DEFINITION. What holds of every state a run from reset can reach, in the terms the statements use: the non-zero
invariant (10_state.md R13), the canonical form of the tables, what a FILL in progress satisfies (10_state.md
R20, 43_fill.md R121), and that only writable memory holds bytes (20_memory.md R35). -/

namespace Sys2Proof.Machine

/-- The multipliers are odd (00_scope.md R5). -/
abbrev ConfigInv (s : State) : Prop := s.cfg.wellFormed = true

/-- Whenever `VALID = 1`, `S ≠ 0`, in every instance (10_state.md R13). -/
abbrev NonZeroInv (s : State) : Prop := ∀ c ∈ s.gens, c.2 ≠ 0#128

/-- What a FILL in progress has made of `S` so far is not zero either; `S` takes it over when the FILL ends
(00_scope.md R8). -/
abbrev NonZeroJobs (s : State) : Prop := ∀ c ∈ s.jobs, c.2.gen ≠ 0#128

/-- The tables are in canonical form. -/
abbrev CanonicalInv (s : State) : Prop :=
  tableWf s.gens ∧ tableWf s.jobs ∧ tableWf s.stuck ∧ Memory.wf s.mem

/-- A FILL in progress has passed its checks (43_fill.md R121) and stands where the iterator started from `S = g` is
after `i` byte writes: `ceil(i / 8)` draws made, and in the shift word the current draw, shifted right by eight bits
for each tail byte written (43_fill.md R122, 10_state.md R20; byte grain and the iterator's own copy of `S`: log 7). -/
abbrev jobAdmitted (c : Config) (g : Wide) (j : FillJob) : Prop :=
  j.i ≤ j.len.toNat ∧ bufferWraps j.base j.len = false ∧ bufferWritable c j.base j.len.toNat = true ∧
    j.gen = nextState^[drawCount j.i] g ∧
    (0 < j.i → j.w = nextOut c.m64 (nextState^[(j.i - 1) / 8] g) >>> (8 * (j.i - bodyBytes j.len.toNat)))

/-- Every FILL in progress is one that was admitted, on an instance with `VALID = 1` (10_state.md R20). -/
abbrev JobsInv (s : State) : Prop := ∀ c ∈ s.jobs, ∃ g, s.genOf c.1 = some g ∧ jobAdmitted s.cfg g c.2

/-- Every stuck instance has `VALID = 1`, no FILL in progress, and is stuck on a buffer within the address space that
is not wholly writable (20_memory.md R36). -/
abbrev StuckInv (s : State) : Prop := ∀ c ∈ s.stuck, s.validOf c.1 = true ∧ s.jobOf c.1 = none ∧
  bufferWraps c.2.base c.2.len = false ∧ bufferWritable s.cfg c.2.base c.2.len.toNat = false

/-- Only addresses that are `Writable` have been written (20_memory.md R35, R36; log 6, log 12). -/
abbrev WritableInv (s : State) : Prop := ∀ c ∈ s.mem, s.cfg.isWritable (BitVec.ofNat 64 c.1) = true

/-- The invariant of the machine. -/
abbrev Inv (s : State) : Prop :=
  ConfigInv s ∧ NonZeroInv s ∧ NonZeroJobs s ∧ CanonicalInv s ∧ JobsInv s ∧ StuckInv s ∧ WritableInv s

end Sys2Proof.Machine
end

