-- ==== Sys2Proof/Certificates/Slice0/Obligations.lean ====
section
/-! DEFINITION. The statements for the provers. Each docstring says which rule of the spec it formalises. Formulas
of the spec are written out here with plain bit-vector and natural-number operations where that makes a statement
independent of the model's own definitions. -/

namespace Sys2Proof.Slice0

open Sys2Proof.Machine

/-- `s` with one more response, of the command being executed, and nothing else changed. -/
def answered (s : State) (e : Status) (d : Wide) : State :=
  { s with responses := s.responses ++ [⟨s.cur, e, d⟩] }

/-- `u` is what the port makes of the answer `a` of command `i` taken up in `s`: that answer; or, where the command
is a FILL with no step (20_memory.md R36), the instance left stuck on it (log 10). -/
def settledAs (i : Instr) (s : State) (a u : Answer) : Prop :=
  (a ≠ .fault .bufferNotWritable → u = a) ∧
    (a = .fault .bufferNotWritable → ∃ base len, i = .fill base len ∧ u = .next (s.stick { base := base, len := len }))

/-- Byte `k` of a value, by its bit range. -/
def slice8 {n : Nat} (v : BitVec n) (k : Nat) : Byte := v.extractLsb' (8 * k) 8

/-- The sixteen bytes of a value in reverse order, byte 0 most significant (00_scope.md R7, `bswap128`). -/
def reversedBytes (v : Wide) : Wide :=
  slice8 v 0 ++ slice8 v 1 ++ slice8 v 2 ++ slice8 v 3 ++ slice8 v 4 ++ slice8 v 5 ++ slice8 v 6 ++ slice8 v 7
    ++ slice8 v 8 ++ slice8 v 9 ++ slice8 v 10 ++ slice8 v 11 ++ slice8 v 12 ++ slice8 v 13 ++ slice8 v 14
    ++ slice8 v 15

/-- `S` after `n` draws from `g` (43_fill.md R123, `T^n`). -/
def afterDraws (n : Nat) (g : Wide) : Wide := nextState^[n] g

/-- Draw number `k` from `g`, counted from 0 (43_fill.md R120, `x_k`). -/
def drawAt (m64 : Word) (g : Wide) (k : Nat) : Word := nextOut m64 (afterDraws k g)

/-- Byte `j` of the bytes drawn from `g` (43_fill.md R120, `B[j]`). -/
def drawnByte (m64 : Word) (g : Wide) (j : Nat) : Byte :=
  ((drawAt m64 g (j / 8)) >>> (8 * (j % 8))).setWidth 8

/-- `ceil(L / 8)`. -/
def ceil8 (L : Nat) : Nat := if L % 8 = 0 then L / 8 else L / 8 + 1

/-- `L(a)` of 41_next.md R92. -/
def mixLow (a : Word) : Word := a ^^^ a >>> 19

/-- The inverse of `L` that 41_next.md R92 (c) gives. -/
def unmixLow (d : Word) : Word := d ^^^ d >>> 19 ^^^ d >>> 38 ^^^ d >>> 57

/-- The inverse of `T` that 41_next.md R92 (d) gives. -/
def unNext (s : Wide) : Wide :=
  let a := unmixLow (s.extractLsb' 64 64)
  (s.extractLsb' 0 64 ^^^ a.rotateRight 7) ++ a

/-- The premises under which a FILL of `s.cur` completes: `VALID = 1` with `S = g`, the buffer within the address
space, every byte of it writable (43_fill.md R121, 20_memory.md R35). -/
def fillReady (s : State) (g : Wide) (base : Addr) (len : Word) : Prop :=
  s.genOf s.cur = some g ∧ base.toNat + len.toNat ≤ 2 ^ 64 ∧
    ∀ j < len.toNat, s.cfg.isWritable (base + BitVec.ofNat 64 j) = true

/-- Two instances, each with a FILL of the same two bytes held at its port; both begin it, then `sched` lands. The
first draw of instance 0 is 0x0201 and of instance 1 is 0x0403 (41_next.md R91: the output is the low word when the
high word is zero). -/
def raceStart (sched : List Event) : State :=
  { State.reset with
    gens := [(0, 0x0201#128), (1, 0x0403#128)]
    commands := [(0, encode (.fill 0x1000#64 2#64)), (1, encode (.fill 0x1000#64 2#64))]
    inputs := [.advance 0 0, .advance 1 0] ++ sched }

/-- `t` is `s` with the FILL `j` of instance `k`, begun from `S = g`, run to its end: `S` after all its draws, the bytes
that were still to come written and no other, its iterator gone, and the response (OK, 0). -/
def fillEnded (s t : State) (k : Nat) (j : FillJob) (g : Wide) : Prop :=
  t.genOf k = some (afterDraws (ceil8 j.len.toNat) g) ∧ t.jobOf k = none ∧
    t.responses = s.responses ++ [⟨k, .ok, 0#128⟩] ∧
    (∀ b, j.i ≤ b → b < j.len.toNat → t.readByte (j.base + BitVec.ofNat 64 b) = some (drawnByte s.cfg.m64 g b)) ∧
    ∀ a : Addr, (∀ b, j.i ≤ b → b < j.len.toNat → a ≠ j.base + BitVec.ofNat 64 b) → t.readByte a = s.readByte a

/-- What the host sees of responses, without the port's number. -/
def seen (rs : List Response) : List (Status × Wide) := rs.map fun r => (r.status, r.data)

end Sys2Proof.Slice0

open Sys2Proof Sys2Proof.Machine Sys2Proof.Slice0

/-! ### Encoding -/

/-- 30_encoding.md R54, R52: every command is read back from its command word, at every operand value. -/
def Obligations.DecodeOfEncode : Prop := ∀ i : Instr, decode (encode i) = .ok i

/-- 30_encoding.md R50 to R56: encoding what was decoded gives back OP and every argument bit that is not
ignored; ignored bits come back zero. -/
def Obligations.EncodeOfDecode : Prop :=
  ∀ (w : CommandWord) (i : Instr), decode w = .ok i →
    opOf (encode i) = opOf w ∧
    argOf (encode i) = match i with
      | .load _ | .seed _ | .fill _ _ => argOf w
      | .seedu64 _ => argOf w &&& 0xFFFFFFFFFFFFFFFF#128
      | .next | .split | .get => 0#128

/-- 30_encoding.md R55: `OP = 0x07` and `OP` from 0x08 up are refused with E_ILLEGAL whatever ARG is, every other
OP names a command; the refused command changes nothing but the response it leaves. -/
def Obligations.IllegalWordsRefused : Prop :=
  ∀ (op : Byte) (arg : Wide),
    (op = 7#8 → decode (op ++ arg) = .error .reservedOpcode) ∧
    (8 ≤ op.toNat → decode (op ++ arg) = .error .illegalOp) ∧
    (op.toNat ≤ 6 → ∃ i, decode (op ++ arg) = .ok i) ∧
    ∀ (p : Nat) (s : State), 7 ≤ op.toNat →
      execWord (op ++ arg) s = .next (answered s .eIllegal 0#128) ∧
      startWord p (op ++ arg) s = .next (answered s .eIllegal 0#128)

/-- Words written out in 95_test_vectors.md part 3 (programs P1, P3, P4, P5) as OP and ARG bytes, and two illegal
ones, decode to the commands they are listed for. -/
def Obligations.SpecWordsDecode : Prop :=
  decodeBytes [0x00, 0x2A, 0xB5, 0x9E, 0xE9, 0xC1, 0x23, 0xCE, 0x22, 0x3F, 0x26, 0xBB, 0x63, 0x20, 0xFD, 0x28, 0x4B]
      = .ok (.load 0x4B28FD2063BB263F22CE23C1E99EB52A#128, []) ∧
  decodeBytes [0x01, 0x00, 0x01, 0x02, 0x03, 0x04, 0x05, 0x06, 0x07, 0x08, 0x09, 0x0A, 0x0B, 0x0C, 0x0D, 0x0E, 0x0F]
      = .ok (.seed 0x0F0E0D0C0B0A09080706050403020100#128, []) ∧
  decodeBytes [0x02, 0x0D, 0, 0, 0, 0, 0, 0, 0, 0, 0, 0, 0, 0, 0, 0, 0] = .ok (.seedu64 13#64, []) ∧
  decodeBytes [0x03, 0, 0, 0, 0, 0, 0, 0, 0, 0, 0, 0, 0, 0, 0, 0, 0] = .ok (.next, []) ∧
  decodeBytes [0x04, 0, 0, 0, 0, 0, 0, 0, 0, 0, 0, 0, 0, 0, 0, 0, 0] = .ok (.split, []) ∧
  decodeBytes [0x05, 0x07, 0, 0, 0, 0, 0, 0, 0, 0x03, 0x20, 0, 0, 0, 0, 0, 0]
      = .ok (.fill 0x2003#64 7#64, []) ∧
  decodeBytes [0x06, 0, 0, 0, 0, 0, 0, 0, 0, 0, 0, 0, 0, 0, 0, 0, 0] = .ok (.get, []) ∧
  decodeBytes [0x07, 0, 0, 0, 0, 0, 0, 0, 0, 0, 0, 0, 0, 0, 0, 0, 0] = .error .reservedOpcode ∧
  decodeBytes [0x83, 0, 0, 0, 0, 0, 0, 0, 0, 0, 0, 0, 0, 0, 0, 0, 0] = .error .illegalOp

/-- 30_encoding.md R59: the 17-byte form of commands and of responses, byte by byte, that it is read back, and what
R59 says of SEED, NEXT and FILL in it. -/
def Obligations.SerialisedForm : Prop :=
  (∀ w : CommandWord, (serialise w).length = 17 ∧ (serialise w)[0]? = some (opOf w) ∧
    ∀ k < 16, (serialise w)[1 + k]? = some (slice8 (argOf w) k)) ∧
  (∀ r : Response, (serialise r.word).length = 17 ∧ (serialise r.word)[0]? = some r.status.code ∧
    ∀ k < 16, (serialise r.word)[1 + k]? = some (slice8 r.data k)) ∧
  (∀ (w : CommandWord) (rest : List Byte), parseWord (serialise w ++ rest) = .ok (w, rest)) ∧
  (∀ bs : List Byte, bs.length < 17 → decodeBytes bs = .error .truncated) ∧
  (∀ bs : List Byte, bs.length = 16 → serialise (encode (.seed (le128 bs))) = 0x01#8 :: bs) ∧
  (∀ (m64 : Word) (g : Wide) (p : Nat),
    ((serialise (Response.word ⟨p, .ok, 0#64 ++ nextOut m64 g⟩)).drop 1).take 8 = (fillBytes m64 g 8).2) ∧
  (∀ (base : Addr) (len : Word), ∀ k < 8,
    (serialise (encode (.fill base len)))[1 + k]? = some (slice8 len k) ∧
    (serialise (encode (.fill base len)))[9 + k]? = some (slice8 base k))

/-- 30_encoding.md R56: the ignored argument bits of SEEDU64, NEXT, SPLIT and GET change nothing and make nothing
illegal. -/
def Obligations.IgnoredArgumentBits : Prop :=
  (∀ (hi hi' n : Word), decode (0x02#8 ++ (hi ++ n : BitVec 128)) = decode (0x02#8 ++ (hi' ++ n : BitVec 128)) ∧
    decode (0x02#8 ++ (hi ++ n : BitVec 128)) = .ok (.seedu64 n)) ∧
  (∀ arg : Wide, decode (0x03#8 ++ arg) = .ok .next ∧ decode (0x04#8 ++ arg) = .ok .split ∧
    decode (0x06#8 ++ arg) = .ok .get) ∧
  (∀ (hi hi' n : Word) (s : State),
    execWord (0x02#8 ++ (hi ++ n : BitVec 128)) s = execWord (0x02#8 ++ (hi' ++ n : BitVec 128)) s) ∧
  (∀ (arg arg' : Wide) (s : State), execWord (0x03#8 ++ arg) s = execWord (0x03#8 ++ arg') s ∧
    execWord (0x04#8 ++ arg) s = execWord (0x04#8 ++ arg') s ∧
    execWord (0x06#8 ++ arg) s = execWord (0x06#8 ++ arg') s) ∧
  (∀ n : Word, argOf (encode (.seedu64 n)) = 0#64 ++ n) ∧ argOf (encode .next) = 0#128 ∧
  argOf (encode .split) = 0#128 ∧ argOf (encode .get) = 0#128

/-- A step executes a held command at its port and takes it off the held commands (30_encoding.md R63,
70_reset_and_hazards.md R162), for an instance that is not stuck. When nothing lands and no FILL is in progress: the
oldest command over all ports whose instance is not stuck, executed whole (that order between ports is the model's
choice, log 8). When leave for instance `k` to run lands and `k` has no FILL in progress: the oldest command of that
port, started (R162's order; the leave is the model's event, log 9). -/
def Obligations.StepRunsDecodedCommand : Prop :=
  ∀ (s : State) (k : Nat) (w : CommandWord) (before after : List (Nat × CommandWord)) (i : Instr),
    s.commands = before ++ (k, w) :: after → s.stuckOf k = none → decode w = .ok i →
    (s.inputs = [] → s.jobs = [] → (∀ c ∈ before, s.stuckOf c.1 ≠ none) →
      settledAs i (s.accept k (before ++ after)) (exec i (s.accept k (before ++ after))) (step s)) ∧
    (∀ p es, s.inputs = .advance k p :: es → s.jobOf k = none → (∀ c ∈ before, c.1 ≠ k) →
      settledAs i (({ s with inputs := es } : State).accept k (before ++ after))
        (startWord p w (({ s with inputs := es } : State).accept k (before ++ after))) (step s))

/-- The word placed by `withFetchWord` is what the very next step executes (the model's own, log 14). -/
def Obligations.PlacedWordRunsNext : Prop :=
  ∀ (s : State) (nbits w : Nat) (i : Instr), decodeTableWord nbits w = some i →
    let s' := { s with inputs := [], jobs := [], stuck := eraseKey s.cur s.stuck, fresh := s.fresh + 1 }
    settledAs i s' (exec i s') (step (s.withFetchWord nbits w))

/-- 30_encoding.md R60, R63 with 00_scope.md R8: a command an instance starts when the platform lets it run for
`p` moves is executed whole, unless it is a FILL with `p` byte writes or more, whose response is then still to come
(the model's events, log 9). -/
def Obligations.OnlyFillsCanPause : Prop :=
  ∀ (p : Nat) (w : CommandWord) (s : State), s.jobOf s.cur = none →
    (∀ base len, decode w = .ok (.fill base len) → len.toNat < p) → startWord p w s = execWord w s

/-! ### Construction and GET -/

/-- 40_construction.md R70, `ZeroFix`, with its properties. -/
def Obligations.ZeroFixIsTheZeroSubstitution : Prop :=
  (∀ v : Wide, zeroFix v = v ^^^ BitVec.setWidth 128 (BitVec.ofBool (v == 0#128))) ∧
  (∀ v : Wide, v ≠ 0#128 → zeroFix v = v) ∧ zeroFix 0#128 = 1#128 ∧
  (∀ v : Wide, zeroFix v ≠ 0#128) ∧
  (∀ u v : Wide, zeroFix u = zeroFix v → u ≠ v → (u = 0#128 ∧ v = 1#128) ∨ (u = 1#128 ∧ v = 0#128))

/-- 40_construction.md R71, LOAD: its encoding, its effect, and the refusal of zero, which keeps an old state. -/
def Obligations.LoadInstallsOrRefusesZero : Prop :=
  (∀ v : Wide, decode (0x00#8 ++ v) = .ok (.load v)) ∧
  (∀ (s : State) (v : Wide), v ≠ 0#128 → ∃ t, exec (.load v) s = .next t ∧ t.genOf s.cur = some v ∧
    t.validOf s.cur = true ∧ t.responses = s.responses ++ [⟨s.cur, .ok, 0#128⟩]) ∧
  (∀ s : State, exec (.load 0#128) s = .next (answered s .eZero 0#128))

/-- 40_construction.md R72, SEED: its encoding and operand, its effect, and its corner cases. -/
def Obligations.SeedInstallsZeroFixed : Prop :=
  (∀ v : Wide, decode (0x01#8 ++ v) = .ok (.seed v)) ∧
  (∀ bs : List Byte, bs.length = 16 → ∀ k < 16, bs[k]? = some (slice8 (le128 bs) k)) ∧
  (∀ (s : State) (v : Wide), ∃ t, exec (.seed v) s = .next t ∧
    t.genOf s.cur = some (if v = 0#128 then 1#128 else v) ∧
    t.validOf s.cur = true ∧ t.responses = s.responses ++ [⟨s.cur, .ok, 0#128⟩]) ∧
  (∀ (s : State) (v : Wide), v ≠ 0#128 → exec (.seed v) s = exec (.load v) s) ∧
  (∀ s : State, exec (.seed 0#128) s = exec (.seed 1#128) s) ∧
  (∀ (s t t' : State) (v v' : Wide), exec (.seed v) s = .next t → exec (.seed v') s = .next t' →
    t.genOf s.cur = t'.genOf s.cur →
    v = v' ∨ (v = 0#128 ∧ v' = 1#128) ∨ (v = 1#128 ∧ v' = 0#128))

/-- 40_construction.md R73, `FromU64`: three multiplications modulo 2^128 and two byte reversals, from `n` in the
high word and 1 in the low word. -/
def Obligations.FromU64IsThreeMultipliesTwoReversals : Prop :=
  (∀ (m : Wide) (n : Word),
    fromU64 m n = reversedBytes (reversedBytes ((n ++ 1#64 : BitVec 128) * m) * m) * m) ∧
  (∀ p q : Wide, (mul128 p q).toNat = p.toNat * q.toNat % 2 ^ 128) ∧
  (∀ v : Wide, bswap128 v = reversedBytes v)

/-- 40_construction.md R74, SEEDU64: its encoding, its effect, that the state is never zero and never that of
another integer for an odd `M128`, and its example at the default configuration. -/
def Obligations.SeedU64InstallsExpansion : Prop :=
  (∀ hi n : Word, decode (0x02#8 ++ (hi ++ n : BitVec 128)) = .ok (.seedu64 n)) ∧
  (∀ (s : State) (n : Word), ∃ t, exec (.seedu64 n) s = .next t ∧
    t.genOf s.cur = some (fromU64 s.cfg.m128 n) ∧
    t.validOf s.cur = true ∧ t.responses = s.responses ++ [⟨s.cur, .ok, 0#128⟩]) ∧
  (∀ (c : Config) (n : Word), c.wellFormed = true → fromU64 c.m128 n ≠ 0#128) ∧
  (∀ (c : Config) (n n' : Word), c.wellFormed = true → fromU64 c.m128 n = fromU64 c.m128 n' → n = n') ∧
  fromU64 Config.default.m128 0#64 ≠ 0#128 ∧ fromU64 Config.default.m128 0#64 ≠ 1#128 ∧
  fromU64 Config.default.m128 13#64 = 0x2FAF8E75E5EA70F71E7594727B6BE2FE#128

/-- The laws of `FromU64` that 40_construction.md §4 derives for an odd multiplier (there R75 (a), (b), (c)). -/
def Obligations.ExpansionLaws : Prop :=
  ∀ m : Wide, m.toNat % 2 = 1 →
    (∀ n : Word, fromU64 m n ≠ 0#128) ∧
    (∀ n n' : Word, fromU64 m n = fromU64 m n' → n = n') ∧
    (∀ v v' : Wide, mul128 v m = mul128 v' m → v = v') ∧
    (∀ v v' : Wide, bswap128 v = bswap128 v' → v = v') ∧
    ∀ n : Word, lo64 (mul128 (n ++ 1#64) m) = lo64 m ∧
      hi64 (mul128 (n ++ 1#64) m) = hi64 m + n * lo64 m

/-- 40_construction.md R76, GET: its encoding, that it returns `S` and changes nothing, its refusal, and its
corner cases. -/
def Obligations.GetReadsTheState : Prop :=
  (∀ arg : Wide, decode (0x06#8 ++ arg) = .ok .get) ∧
  (∀ (s : State) (g : Wide), s.genOf s.cur = some g → exec .get s = .next (answered s .ok g)) ∧
  (∀ s : State, s.genOf s.cur = none → exec .get s = .next (answered s .eNoState 0#128)) ∧
  (∀ (s : State) (g : Wide), NonZeroInv s → s.genOf s.cur = some g → g ≠ 0#128) ∧
  (∀ (s : State) (g : Wide), s.genOf s.cur = some g → ∃ t u, exec .get s = .next t ∧ exec .get t = .next u ∧
    u.responses = s.responses ++ [⟨s.cur, .ok, g⟩, ⟨s.cur, .ok, g⟩]) ∧
  (∀ s : State, ∃ t u, exec (.seed 0#128) s = .next t ∧ exec .get t = .next u ∧
    u.responses = s.responses ++ [⟨s.cur, .ok, 0#128⟩, ⟨s.cur, .ok, 1#128⟩])

/-! ### NEXT and SPLIT -/

/-- 41_next.md R90, `Next`: the next state by its two words, the output as a number. -/
def Obligations.NextFunction : Prop :=
  ∀ (m64 : Word) (s : Wide),
    let a := s.extractLsb' 0 64
    let b := s.extractLsb' 64 64
    let p := b.toNat * m64.toNat
    nextPair m64 s = (nextState s, nextOut m64 s) ∧
    nextState s = (a ^^^ a >>> 19) ++ (a.rotateRight 7 ^^^ b) ∧
    (nextOut m64 s).toNat = a.toNat ^^^ ((p % 2 ^ 64 + p / 2 ^ 64) % 2 ^ 64)

/-- 41_next.md R91, NEXT: its encoding, its effect, its refusal, its corner cases and its example. -/
def Obligations.NextDrawsOnce : Prop :=
  (∀ arg : Wide, decode (0x03#8 ++ arg) = .ok .next) ∧
  (∀ (s : State) (g : Wide), s.genOf s.cur = some g → ∃ t, exec .next s = .next t ∧
    t.genOf s.cur = some (nextState g) ∧ t.validOf s.cur = true ∧
    t.responses = s.responses ++ [⟨s.cur, .ok, 0#64 ++ nextOut s.cfg.m64 g⟩]) ∧
  (∀ s : State, s.genOf s.cur = none → exec .next s = .next (answered s .eNoState 0#128)) ∧
  (∀ m : Word, nextPair m 1#128 = (0x00000000000000010200000000000000#128, 1#64)) ∧
  (∀ m : Word, nextPair m 0x00000000000000010000000000000000#128 = (1#128, m)) ∧
  (∀ m : Word, m ≠ 0#64 → nextPair m 0xFFFFFFFFFFFFFFFFFFFFFFFFFFFFFFFF#128
    = (0xFFFFE000000000000000000000000000#128, 0#64)) ∧
  (∀ m a : Word, nextOut m (0#64 ++ a) = a) ∧
  (∀ b : Word, nextState (b ++ 0#64) = 0#64 ++ b) ∧
  nextPair Config.default.m64 0x2FAF8E75E5EA70F71E7594727B6BE2FE#128
    = (0x1E7597BCC9E5AD93D393655D011CA732#128, 0x22CE23C1E99EB52A#64)

/-- The laws of `T` that 41_next.md §3 derives (there R92 (b) to (e)): linear, a bijection with the inverse given,
zero exactly at zero, and so never zero from a non-zero state after any number of steps. -/
def Obligations.NextStateLaws : Prop :=
  (∀ s s' : Wide, nextState (s ^^^ s') = nextState s ^^^ nextState s') ∧
  (∀ a : Word, unmixLow (mixLow a) = a ∧ mixLow (unmixLow a) = a) ∧
  (∀ s : Wide, unNext (nextState s) = s ∧ nextState (unNext s) = s) ∧
  (∀ s : Wide, nextState s = 0#128 ↔ s = 0#128) ∧
  ∀ (n : Nat) (s : Wide), s ≠ 0#128 → afterDraws n s ≠ 0#128

/-- 42_split.md R110, `SplitOf`: the parent, the child with the first draw low, and its properties. -/
def Obligations.SplitFunction : Prop :=
  ∀ (m64 : Word) (s : Wide),
    let x0 := nextOut m64 s
    let x1 := nextOut m64 (nextState s)
    let child := if x1 = 0#64 ∧ x0 = 0#64 then 1#128 else (x1 ++ x0 : BitVec 128)
    splitOf m64 s = (nextState (nextState s), child) ∧
    child ≠ 0#128 ∧
    (child = 1#128 ↔ (x0 = 0#64 ∧ x1 = 0#64) ∨ (x0 = 1#64 ∧ x1 = 0#64)) ∧
    (s ≠ 0#128 → nextState (nextState s) ≠ 0#128)

/-- SPLIT as 42_split.md §2 gives it: encoding, effect, refusal; for the instance a SPLIT is two NEXTs; the child,
loaded anywhere, is not refused. -/
def Obligations.SplitHandsOutAChild : Prop :=
  (∀ arg : Wide, decode (0x04#8 ++ arg) = .ok .split) ∧
  (∀ (s : State) (g : Wide), s.genOf s.cur = some g → ∃ t, exec .split s = .next t ∧
    t.genOf s.cur = some (nextState (nextState g)) ∧
    t.responses = s.responses ++ [⟨s.cur, .ok, (splitOf s.cfg.m64 g).2⟩]) ∧
  (∀ s : State, s.genOf s.cur = none → exec .split s = .next (answered s .eNoState 0#128)) ∧
  (∀ (s : State) (g : Wide), s.genOf s.cur = some g → ∃ t t1 t2, exec .split s = .next t ∧
    exec .next s = .next t1 ∧ exec .next t1 = .next t2 ∧ ∀ k, t.genOf k = t2.genOf k) ∧
  (∀ (s u : State) (g : Wide), s.genOf s.cur = some g → ∃ t, exec (.load (splitOf s.cfg.m64 g).2) u = .next t ∧
    t.genOf u.cur = some (splitOf s.cfg.m64 g).2)

/-! ### FILL and buffer memory -/

/-- 43_fill.md R120, `FillBytes`: the end state, the length, and every byte by its draw. -/
def Obligations.FillBytesFunction : Prop :=
  ∀ (m64 : Word) (s : Wide) (L : Nat),
    (fillBytes m64 s L).1 = afterDraws (ceil8 L) s ∧
    (fillBytes m64 s L).2.length = L ∧
    (∀ j < L, (fillBytes m64 s L).2[j]? = some (drawnByte m64 s j)) ∧
    L ≤ 8 * ceil8 L ∧ 8 * ceil8 L < L + 8

/-- FILL as 43_fill.md §2 gives it: its encoding and its effect on `S` and on every byte of memory. The stored
bytes are the LEN addresses from BASE. -/
def Obligations.FillWritesTheBuffer : Prop :=
  (∀ (base : Addr) (len : Word), decode (0x05#8 ++ (base ++ len : BitVec 128)) = .ok (.fill base len)) ∧
  ∀ (s : State) (g : Wide) (base : Addr) (len : Word), fillReady s g base len →
    ∃ t, exec (.fill base len) s = .next t ∧
      t.genOf s.cur = some (afterDraws (ceil8 len.toNat) g) ∧
      t.responses = s.responses ++ [⟨s.cur, .ok, 0#128⟩] ∧
      (∀ j < len.toNat, t.readByte (base + BitVec.ofNat 64 j) = some (drawnByte s.cfg.m64 g j)) ∧
      (∀ a : Addr, (a.toNat < base.toNat ∨ base.toNat + len.toNat ≤ a.toNat) → t.readByte a = s.readByte a)

/-- 60_exceptions.md R142: the fixed order of the checks, what each command can be refused with, and that at most
one error is reported. -/
def Obligations.CheckOrder : Prop :=
  (∀ (op : Byte) (arg : Wide) (s : State), 7 ≤ op.toNat →
    execWord (op ++ arg) s = .next (answered s .eIllegal 0#128)) ∧
  (∀ (s : State) (base : Addr) (len : Word), s.genOf s.cur = none →
    exec .next s = .next (answered s .eNoState 0#128) ∧
    exec .split s = .next (answered s .eNoState 0#128) ∧
    exec .get s = .next (answered s .eNoState 0#128) ∧
    exec (.fill base len) s = .next (answered s .eNoState 0#128)) ∧
  (∀ (s : State) (g : Wide) (base : Addr) (len : Word), s.genOf s.cur = some g →
    2 ^ 64 < base.toNat + len.toNat → exec (.fill base len) s = .next (answered s .eRange 0#128)) ∧
  (∀ s : State, exec (.load 0#128) s = .next (answered s .eZero 0#128)) ∧
  (∀ (s t : State) (v : Wide) (n : Word),
    (exec (.load v) s = .next t ∨ exec (.seed v) s = .next t ∨ exec (.seedu64 n) s = .next t) →
    ∀ d, t.responses ≠ s.responses ++ [⟨s.cur, .eNoState, d⟩]) ∧
  (∀ (i : Instr) (s t : State), exec i s = .next t → ∃ r, t.responses = s.responses ++ [r])

/-- 20_memory.md R36: a FILL whose buffer holds an address that is not writable has no step. -/
def Obligations.UnwritableFillIsStuck : Prop :=
  ∀ (s : State) (g : Wide) (base : Addr) (len : Word) (j : Nat), s.genOf s.cur = some g →
    base.toNat + len.toNat ≤ 2 ^ 64 → j < len.toNat → s.cfg.isWritable (base + BitVec.ofNat 64 j) = false →
    exec (.fill base len) s = .fault .bufferNotWritable

/-- All commands are total (60_exceptions.md §1, 43_fill.md §2) but for a FILL over memory that is not writable
(20_memory.md §4): no other command ends without a next state. (What the system does then: log 10.) -/
def Obligations.OnlyUnwritableFillStops : Prop :=
  ∀ (i : Instr) (s : State), (∃ t, exec i s = .next t) ∨
    (exec i s = .fault .bufferNotWritable ∧ ∃ base len g j, i = .fill base len ∧ s.genOf s.cur = some g ∧
      base.toNat + len.toNat ≤ 2 ^ 64 ∧ j < len.toNat ∧
      s.cfg.isWritable (base + BitVec.ofNat 64 j) = false)

/-- The reference iterator of 43_fill.md §3 and the iterator with sixteen-byte beats of §4 give the bytes and the
end state of `FillBytes`, for every length. -/
def Obligations.FillIteratorsAgree : Prop :=
  ∀ (m64 : Word) (s : Wide) (L : Nat),
    fillIter8 m64 s L = fillBytes m64 s L ∧ fillIter16 m64 s L = fillBytes m64 s L

/-- A FILL run through its iterator (10_state.md §5, 43_fill.md §3) is the FILL executed whole, however often it
is paused: run without a pause it is the command, and two runs in a row are one. While it is paused, between two byte
writes or between the last and its response, `S` is as it was (00_scope.md R8) and no response has left. The byte
grain of the iterator is log 7, the pauses are the model's events (log 9). -/
def Obligations.PausesDoNotChangeAFill : Prop :=
  (∀ (s : State) (base : Addr) (len : Word) (p : Nat), s.jobOf s.cur = none → len.toNat < p →
    startFill p base len s = exec (.fill base len) s) ∧
  ∀ (s : State) (g : Wide) (j : FillJob) (p q : Nat), s.genOf s.cur = some g → j.i + p ≤ j.len.toNat →
    ∃ s1 j1, runJob p j s = .next s1 ∧ s1.cur = s.cur ∧ s1.genOf s.cur = some g ∧ s1.responses = s.responses ∧
      s1.jobOf s.cur = some j1 ∧ j1.base = j.base ∧ j1.len = j.len ∧ j1.i = j.i + p ∧
      runJob q j1 s1 = runJob (p + q) j s

/-- What a FILL paused after `p` byte writes, of `0` to `LEN`, has done (10_state.md §5, 20_memory.md §5): a prefix
of its bytes, in increasing order, nothing outside it, no response, and `S` as it was (00_scope.md R8); its iterator
stands at offset `p` with `ceil(p/8)` draws made and, from the first on, the current draw in its shift word, shifted
right by eight bits for each tail byte written. The byte grain, inside a whole draw also, and the iterator's own copy
of `S` are log 7; the pause is the model's event (log 9). -/
def Obligations.PausedFillWroteAPrefix : Prop :=
  ∀ (s : State) (g : Wide) (base : Addr) (len : Word) (p : Nat), fillReady s g base len → p ≤ len.toNat →
    ∃ t j, startFill p base len s = .next t ∧ t.responses = s.responses ∧ t.genOf s.cur = some g ∧
      t.jobOf s.cur = some j ∧ j.base = base ∧ j.len = len ∧ j.i = p ∧ j.gen = afterDraws (ceil8 p) g ∧
      (0 < p → j.w = drawAt s.cfg.m64 g ((p - 1) / 8) >>> (8 * (p - 8 * (len.toNat / 8)))) ∧
      (∀ k < p, t.readByte (base + BitVec.ofNat 64 k) = some (drawnByte s.cfg.m64 g k)) ∧
      (∀ a : Addr, (a.toNat < base.toNat ∨ base.toNat + p ≤ a.toNat) → t.readByte a = s.readByte a)

/-- Byte order of buffer memory (20_memory.md §2): after consecutive writes, byte `k` stands at the address `k`
above the first and every other byte is as before. -/
def Obligations.ConsecutiveWritesAreReadBack : Prop :=
  ∀ (s : State) (a : Addr) (n : Nat) (v : Word), n ≤ 8 →
    (∀ k < n, (s.writeBytes a ((leBytes64 v).take n)).readByte (a + BitVec.ofNat 64 k)
      = some (v.extractLsb' (8 * k) 8)) ∧
    (∀ c : Addr, (∀ k < n, c ≠ a + BitVec.ofNat 64 k) →
      (s.writeBytes a ((leBytes64 v).take n)).readByte c = s.readByte c)

/-- A FILL and the NEXTs it stands for (43_fill.md §3): the same end state, and the bytes of the FILL are those of
the NEXT responses laid end to end, least significant byte first. -/
def Obligations.FillEqualsNexts : Prop :=
  ∀ (s : State) (g : Wide) (base : Addr) (len : Word), fillReady s g base len →
    ∃ t u rs, exec (.fill base len) s = .next t ∧ execNextN s.cur (ceil8 len.toNat) s = .next u ∧
      t.genOf s.cur = u.genOf s.cur ∧ u.responses = s.responses ++ rs ∧ rs.length = ceil8 len.toNat ∧
      ∀ j < len.toNat, t.readByte (base + BitVec.ofNat 64 j)
        = (rs[j / 8]?).map fun r => r.data.extractLsb' (8 * (j % 8)) 8

/-- Two fills in a row are one fill when the first length is a multiple of eight (43_fill.md §3). -/
def Obligations.FillsJoinAtWholeDraws : Prop :=
  ∀ (m64 : Word) (s : Wide) (L1 L2 : Nat), L1 % 8 = 0 →
    fillBytes m64 s (L1 + L2)
      = ((fillBytes m64 (fillBytes m64 s L1).1 L2).1,
         (fillBytes m64 s L1).2 ++ (fillBytes m64 (fillBytes m64 s L1).1 L2).2)

/-! ### Responses and refusals -/

/-- 60_exceptions.md R140: `raise` leaves a response with the error's STATUS and DATA zero and changes nothing
else; a command either does just that, or leaves an OK response. -/
def Obligations.ErrorsChangeNothing : Prop :=
  (∀ (e : Status) (s : State), raise e s = .next (answered s e 0#128)) ∧
  ∀ (i : Instr) (s t : State), exec i s = .next t →
    (∃ e, e ≠ .ok ∧ t = answered s e 0#128) ∨ (∃ d, t.responses = s.responses ++ [⟨s.cur, .ok, d⟩])

/-- 30_encoding.md R58: DATA by command when STATUS is OK, and DATA zero when it is not. -/
def Obligations.ResponseData : Prop :=
  ∀ (i : Instr) (s t : State) (p : Nat) (e : Status) (d : Wide), exec i s = .next t →
    t.responses = s.responses ++ [⟨p, e, d⟩] →
    (e ≠ .ok → d = 0#128) ∧
    (e = .ok → match i with
      | .load _ | .seed _ | .seedu64 _ | .fill _ _ => d = 0#128
      | .next => ∃ g, s.genOf s.cur = some g ∧ d.extractLsb' 64 64 = 0#64 ∧
          d.extractLsb' 0 64 = nextOut s.cfg.m64 g
      | .split => ∃ g, s.genOf s.cur = some g ∧
          d.extractLsb' 64 64 = (splitOf s.cfg.m64 g).2.extractLsb' 64 64 ∧
          d.extractLsb' 0 64 = (splitOf s.cfg.m64 g).2.extractLsb' 0 64
      | .get => ∃ g, s.genOf s.cur = some g ∧ d.extractLsb' 64 64 = g.extractLsb' 64 64 ∧
          d.extractLsb' 0 64 = g.extractLsb' 0 64)

/-- The response word and its STATUS codes (30_encoding.md §3, 60_exceptions.md §1), and that a command leaves one
response, at the port it was delivered on. -/
def Obligations.OneResponsePerCommand : Prop :=
  (∀ r : Response, r.word.extractLsb' 128 8 = r.status.code ∧ r.word.extractLsb' 0 128 = r.data ∧
    (r.status.code.toNat = match r.status with
      | .ok => 0 | .eIllegal => 1 | .eNoState => 2 | .eZero => 3 | .eRange => 4)) ∧
  (∀ (w : CommandWord) (s t : State), execWord w s = .next t →
    ∃ r, t.responses = s.responses ++ [r] ∧ r.port = s.cur)

/-! ### Reset, the flag, the invariants -/

/-- What reset leaves, as 10_state.md §6 gives it: no instance has a state, and no command is in progress, a stuck
one neither. That no byte of memory has a known value is the model's choice (log 6). -/
def Obligations.ResetLeavesNoState : Prop :=
  ∀ (k : Nat) (a : Addr), State.reset.validOf k = false ∧ State.reset.genOf k = none ∧
    State.reset.jobOf k = none ∧ State.reset.stuckOf k = none ∧ State.reset.readByte a = none

/-- The reset of an instance (70_reset_and_hazards.md §1): `VALID` cleared, the command in progress gone, no
response; memory and every other instance as before. The command abandoned is the FILL in progress or the one the
instance is stuck on; with neither, the oldest command of that port if the instance had accepted it, and none where
that port holds none. That the other held commands, those of other ports too, stay held is the model's reading
(log 11). -/
def Obligations.ResetOfAnInstance : Prop :=
  ∀ (s : State) (k : Nat) (accepted : Bool) (es : List Event), s.inputs = .reset k accepted :: es →
    ∃ t, step s = .next t ∧ t.validOf k = false ∧ t.jobOf k = none ∧ t.stuckOf k = none ∧
      (∀ j, j ≠ k → t.genOf j = s.genOf j ∧ t.jobOf j = s.jobOf j ∧ t.stuckOf j = s.stuckOf j) ∧
      t.mem = s.mem ∧ t.responses = s.responses ∧ t.cfg = s.cfg ∧ t.inputs = es ∧
      (accepted = false ∨ s.jobOf k ≠ none ∨ s.stuckOf k ≠ none ∨ (∀ c ∈ s.commands, c.1 ≠ k) →
        t.commands = s.commands) ∧
      (accepted = true → s.jobOf k = none → s.stuckOf k = none →
        ∀ before after w, s.commands = before ++ (k, w) :: after →
          (∀ c ∈ before, c.1 ≠ k) → t.commands = before ++ after)

/-- `VALID` as 10_state.md §2 has it, over every step (from a state in which stuck instances are valid, an invariant
stated by itself): it is set only by executing a LOAD of a non-zero value, a SEED or a SEEDU64, the oldest command
held at that instance's port, which is then taken off; and it is cleared only by that instance's reset. -/
def Obligations.ValidFlagRule : Prop :=
  ∀ (s t : State) (k : Nat), StuckInv s → step s = .next t →
    (s.validOf k = false → t.validOf k = true → t.cur = k ∧ ∃ before w after,
      s.commands = before ++ (k, w) :: after ∧ (∀ c ∈ before, c.1 ≠ k) ∧ t.commands = before ++ after ∧
      ((∃ v, v ≠ 0#128 ∧ decode w = .ok (.load v)) ∨ (∃ v, decode w = .ok (.seed v)) ∨
        (∃ n, decode w = .ok (.seedu64 n)))) ∧
    (s.validOf k = true → t.validOf k = false → ∃ accepted es, s.inputs = .reset k accepted :: es)

/-- The non-zero invariant of 10_state.md §2 is kept by every step, for odd multipliers: of `S`, and of what a FILL in
progress has made of it so far. -/
def Obligations.NonZeroKept : Prop :=
  ∀ s t : State, ConfigInv s → NonZeroInv s → NonZeroJobs s → step s = .next t →
    ConfigInv t ∧ NonZeroInv t ∧ NonZeroJobs t

/-- The canonical form of the tables (the model's own data) is kept by every step. -/
def Obligations.CanonicalKept : Prop :=
  ∀ s t : State, CanonicalInv s → step s = .next t → CanonicalInv t

/-- Every step keeps that the fills in progress are admitted ones on valid instances and stand where the iterator
started from `S` is (10_state.md §5, 43_fill.md §2, §3; that it stands at byte grain inside a whole draw too, and that
`S` stays while the iterator's copy of it moves, is the model's choice, log 7), that stuck instances are valid and stuck on a buffer that is
not writable throughout (20_memory.md §4), and that only bytes at writable addresses have a known value. The last is
the model's: a byte has a value only once it is written (log 6), and an outside write elsewhere stops the model
(log 12). -/
def Obligations.FillsInProgressKept : Prop :=
  ∀ s t : State, JobsInv s → StuckInv s → WritableInv s → step s = .next t → JobsInv t ∧ StuckInv t ∧ WritableInv t

/-- The whole invariant holds after reset. -/
def Obligations.InvariantsAtReset : Prop := Inv State.reset

/-- No step changes a byte at an address that is not writable: no FILL does (20_memory.md §4), and an outside write
there stops the model, which is the model's choice (log 12). -/
def Obligations.UnwritableBytesNeverChange : Prop :=
  ∀ (s t : State) (a : Addr), JobsInv s → s.cfg.isWritable a = false → step s = .next t →
    t.readByte a = s.readByte a

/-- No command can change the configuration (10_state.md §3), and no step does. -/
def Obligations.ConfigurationNeverWritten : Prop :=
  ∀ s t : State, step s = .next t → t.cfg = s.cfg

/-! ### Frames, ports and instances -/

/-- What a command leaves unchanged when it answers a next state: every other instance, every FILL in progress,
every stuck instance, the held commands, the events, the configuration, the port; every byte of memory but the
FILL's buffer, which is the LEN addresses from BASE; and for GET every generator (10_state.md §1, 20_memory.md §5,
60_exceptions.md §4). -/
def Obligations.FrameOfEveryCommand : Prop :=
  ∀ (i : Instr) (s t : State), exec i s = .next t →
    (∀ k, k ≠ s.cur → t.genOf k = s.genOf k) ∧ t.jobs = s.jobs ∧ t.stuck = s.stuck ∧ t.commands = s.commands ∧
    t.inputs = s.inputs ∧ t.cfg = s.cfg ∧ t.cur = s.cur ∧
    match i with
    | .fill base len => ∀ a : Addr, (∀ j < len.toNat, a ≠ bufferAddr base j) → t.readByte a = s.readByte a
    | .get => (∀ k, t.genOf k = s.genOf k) ∧ ∀ a : Addr, t.readByte a = s.readByte a
    | .load _ | .seed _ | .seedu64 _ | .next | .split => ∀ a : Addr, t.readByte a = s.readByte a

/-- Nothing asynchronous changes `S` or `VALID` but reset (60_exceptions.md §2), and no instance changes another's
(§4): what a step changes of instance `k` is `k`'s own execution, or `k`'s reset. `k` executes when nothing lands and
it has a FILL in progress or a command held, or when leave for `k` to run lands. -/
def Obligations.StepMovesOneInstance : Prop :=
  ∀ (s t : State) (k : Nat), step s = .next t →
    (t.genOf k = s.genOf k ∧ t.jobOf k = s.jobOf k ∧ t.stuckOf k = s.stuckOf k) ∨
    (t.cur = k ∧ ((s.inputs = [] ∧ ((∃ j, (k, j) ∈ s.jobs) ∨ ∃ w, (k, w) ∈ s.commands)) ∨
      ∃ p es, s.inputs = .advance k p :: es)) ∨
    ∃ accepted es, s.inputs = .reset k accepted :: es

/-- The port holds a command presented while the instance executes, in order, and gives it to the instance only
when the instance is idle (70_reset_and_hazards.md §2): an instance with a FILL in progress, or stuck on one, takes
none. That with nothing landing and a FILL of any instance in progress no port's command is taken is the model's
default (log 8). -/
def Obligations.BusyPortHolds : Prop :=
  (∀ (s : State) (k : Nat) (w : CommandWord) (es : List Event), s.inputs = .present k w :: es →
    step s = .next { s with inputs := es, commands := s.commands ++ [(k, w)] }) ∧
  (∀ (s t : State) (k p : Nat) (es : List Event), s.inputs = .advance k p :: es →
    s.jobOf k ≠ none ∨ s.stuckOf k ≠ none → step s = .next t → t.commands = s.commands) ∧
  (∀ s t : State, s.inputs = [] → s.jobs ≠ [] → step s = .next t → t.commands = s.commands)

/-- An outside agent's write to writable memory is read there afterwards and changes nothing else (20_memory.md §5,
R38 "until something else overwrites it"): the state after it is the state before with that byte written and the event
gone. -/
def Obligations.OutsideWriteLands : Prop :=
  ∀ (s : State) (a : Addr) (b : Byte) (es : List Event), s.inputs = .externWrite a b :: es →
    s.cfg.isWritable a = true →
    ∃ t, step s = .next t ∧ t.readByte a = some b ∧ (∀ c, c ≠ a → t.readByte c = s.readByte c) ∧
      t = { s with inputs := es, mem := t.mem } ∧ t = ({ s with inputs := es } : State).writeByte a b

/-- Over memory that is writable everywhere, when nothing lands and no instance is stuck, every FILL in progress and
every held command is answered: one response each, one a step, the commands in their order (30_encoding.md §3,
60_exceptions.md §2, 70_reset_and_hazards.md §2, §3). That the fills in progress go before the held commands, by port
number, and commands of several ports in the order they were presented, is the model's default (log 8). -/
def Obligations.HeldCommandsAreAnsweredInOrder : Prop :=
  ∀ s : State, s.inputs = [] → s.stuck = [] → (∀ a, s.cfg.isWritable a = true) → tableWf s.jobs → JobsInv s →
    ∃ t rs, core.run (s.jobs.length + s.commands.length) s = .next t ∧ t.jobs = [] ∧ t.commands = [] ∧
      t.responses = s.responses ++ rs ∧ rs.map (·.port) = s.jobs.map (·.1) ++ s.commands.map (·.1)

/-- An instance's behaviour depends on its own `S` alone (60_exceptions.md §4; memory is never read, 20_memory.md
§1): the same command on two instances with equal `S`, whatever else the two systems hold, gives equal responses
and equal `S`, and stops on both or on neither. -/
def Obligations.SameStateSameAnswer : Prop :=
  ∀ (i : Instr) (s s' : State), s.cfg = s'.cfg → s.genOf s.cur = s'.genOf s'.cur →
    match exec i s, exec i s' with
    | .next t, .next t' => t.genOf s.cur = t'.genOf s'.cur ∧ ∃ e d,
        t.responses = s.responses ++ [⟨s.cur, e, d⟩] ∧ t'.responses = s'.responses ++ [⟨s'.cur, e, d⟩]
    | .fault r, .fault r' => r = r'
    | _, _ => False

/-- Two instances that hold equal states return equal responses to equal command sequences and go on holding equal
states (10_state.md §5, "Value semantics"). -/
def Obligations.CopiesStayEqual : Prop :=
  ∀ (is : List Instr) (s s' : State) (k k' : Nat), s.cfg = s'.cfg → s.genOf k = s'.genOf k' →
    match execAll k is s, execAll k' is s' with
    | .next t, .next t' => t.genOf k = t'.genOf k' ∧ ∃ rs rs',
        t.responses = s.responses ++ rs ∧ t'.responses = s'.responses ++ rs' ∧ seen rs = seen rs'
    | .fault r, .fault r' => r = r'
    | _, _ => False

/-- CLONE (30_encoding.md §5): both commands answer OK and both instances then hold the source's state. -/
def Obligations.CloneCopies : Prop :=
  ∀ (s : State) (dst src : Nat) (g : Wide), NonZeroInv s → s.genOf src = some g →
    ∃ t, execClone dst src s = .next t ∧ t.genOf dst = some g ∧ t.genOf src = some g ∧
      t.responses = s.responses ++ [⟨src, .ok, g⟩, ⟨dst, .ok, 0#128⟩]

/-- SPLITTO (30_encoding.md §5, 60_exceptions.md §4): both commands answer OK, the destination holds the child, and
the source, when it is another instance, has advanced by two draws. -/
def Obligations.SplitToHandsOver : Prop :=
  ∀ (s : State) (dst src : Nat) (g : Wide), s.genOf src = some g →
    ∃ t, execSplitTo dst src s = .next t ∧ t.genOf dst = some (splitOf s.cfg.m64 g).2 ∧
      (dst ≠ src → t.genOf src = some (nextState (nextState g))) ∧
      t.responses = s.responses ++ [⟨src, .ok, (splitOf s.cfg.m64 g).2⟩, ⟨dst, .ok, 0#128⟩]

/-- SEEDB and NEXTN (30_encoding.md §5): SEEDB is the SEED whose operand has seed byte `k` as its byte `k`; NEXTN is
NEXT repeated, no command at all for a count of 0. That a line whose numbers do not fit is no command is the model's
reading (log 16). -/
def Obligations.PseudoCommandLines : Prop :=
  (∀ (bytes : List Nat) (k : Nat) (s : State), (Line.seedb bytes).wellFormed = true →
    ∃ v, execLine k (.seedb bytes) s = some (execAt k (.seed v) s) ∧
      ∀ j < 16, bytes[j]? = some (v.extractLsb' (8 * j) 8).toNat) ∧
  (∀ (k : Nat) (s : State), execLine k (.nextN 0) s = some (.next s)) ∧
  (∀ (k n : Nat) (s : State), execLine k (.nextN (n + 1)) s
    = some (afterAnswer (execAt k .next s) (execNextN k n))) ∧
  (∀ (l : Line) (k : Nat) (s : State), l.wellFormed = false → execLine k l s = none)

/-- Two fills of overlapping buffers race byte by byte (20_memory.md §5 R45): from one state of two instances, with
both fills begun, one schedule leaves both bytes to instance 0, one leaves both to instance 1, and one leaves the
first byte to 0 and the second to 1. -/
def Obligations.OverlappingFillsRace : Prop :=
  (∃ t, core.run 4 (raceStart [.advance 1 2, .advance 0 2]) = .next t ∧
    t.readByte 0x1000#64 = some 0x01#8 ∧ t.readByte 0x1001#64 = some 0x02#8) ∧
  (∃ t, core.run 4 (raceStart [.advance 0 2, .advance 1 2]) = .next t ∧
    t.readByte 0x1000#64 = some 0x03#8 ∧ t.readByte 0x1001#64 = some 0x04#8) ∧
  (∃ t, core.run 5 (raceStart [.advance 1 1, .advance 0 2, .advance 1 1]) = .next t ∧
    t.readByte 0x1000#64 = some 0x01#8 ∧ t.readByte 0x1001#64 = some 0x04#8)

/-! ### Instances stuck on a FILL -/

/-- An instance that comes to be stuck on a FILL stops nobody else (20_memory.md R36, 60_exceptions.md R150): the step
answers, without a response of its own, and every other instance is as before. What the stuck FILL did to the addresses
before the first that is not writable is unspecified, so they have no known value; every other byte is as before (that
they lose their value at once, and `S` is a free value, is how the model says it, log 10 and log 18). -/
def Obligations.StuckFillStopsItsInstanceOnly : Prop :=
  ∀ (s t : State) (k : Nat) (f : StuckFill), step s = .next t → s.stuckOf k = none → t.stuckOf k = some f →
    t.cur = k ∧ t.responses = s.responses ∧ t.validOf k = true ∧ t.jobs = s.jobs ∧
    (∀ j, j ≠ k → t.genOf j = s.genOf j ∧ t.stuckOf j = s.stuckOf j) ∧
    (∃ j < f.len.toNat, s.cfg.isWritable (bufferAddr f.base j) = false) ∧
    (∀ j < f.len.toNat, (∀ i ≤ j, s.cfg.isWritable (bufferAddr f.base i) = true) →
      t.readByte (bufferAddr f.base j) = none) ∧
    (∀ a : Addr, (∀ j < f.len.toNat, (∀ i ≤ j, s.cfg.isWritable (bufferAddr f.base i) = true) →
      a ≠ bufferAddr f.base j) → t.readByte a = s.readByte a)

/-- A stuck instance stays stuck until its reset (20_memory.md R36, 70_reset_and_hazards.md §1): it keeps `VALID`, gives
no response, and its port goes on holding its commands in order (§2). -/
def Obligations.OnlyResetFreesAStuckInstance : Prop :=
  ∀ (s t : State) (k : Nat) (f : StuckFill), StuckInv s → step s = .next t → s.stuckOf k = some f →
    (∃ accepted es, s.inputs = .reset k accepted :: es) ∨
    (t.stuckOf k = some f ∧ t.validOf k = true ∧
      (∃ rs, t.responses = s.responses ++ rs ∧ ∀ r ∈ rs, r.port ≠ k) ∧
      ∃ more, t.commands.filter (fun c => c.1 == k) = s.commands.filter (fun c => c.1 == k) ++ more)

/-- The system always takes its next step (60_exceptions.md R150, 70_reset_and_hazards.md R167), whatever its instances
are stuck on, but for an outside write to an address that is not writable (the model's choice, log 12). -/
def Obligations.OnlyAnOutsideWriteStopsTheSystem : Prop :=
  ∀ s : State, (∃ t, step s = .next t) ∨ (step s = .fault .externNotWritable ∧
    ∃ a b es, s.inputs = .externWrite a b :: es ∧ s.cfg.isWritable a = false)

/-! ### Steps of a FILL in progress -/

/-- A step runs a FILL in progress on, and completes it (60_exceptions.md §2, 70_reset_and_hazards.md §3, 43_fill.md
§3). When nothing lands: the FILL of the lowest port, to its end; that it goes before everything else is the model's
default (log 8). When leave for instance `k` to run for `p` moves lands: the FILL of `k`, for `p` moves, which end it
when they are more than its byte writes to come (the leave is the model's event, log 9; the iterator's grain is
log 7). -/
def Obligations.StepRunsAFillInProgress : Prop :=
  ∀ (s : State) (k : Nat) (j : FillJob),
    (∀ rest, s.inputs = [] → s.jobs = (k, j) :: rest →
      step s = runJob (j.len.toNat + 1) j { s with cur := k } ∧
      ∀ g, s.genOf k = some g → jobAdmitted s.cfg g j → ∃ t, step s = .next t ∧ fillEnded s t k j g) ∧
    (∀ p es, s.inputs = .advance k p :: es → s.stuckOf k = none → s.jobOf k = some j →
      step s = runJob p j { s with inputs := es, cur := k } ∧
      ∀ g, s.genOf k = some g → jobAdmitted s.cfg g j → j.len.toNat - j.i < p →
        ∃ t, step s = .next t ∧ fillEnded s t k j g)
end

