-- ==== Sys2Proof/Laws/PerInstr.lean ====
section
/-! SUPPORT. Facts about the encoding of each instruction, one lemma per constructor (30_encoding.md R50, R54). -/

namespace Sys2Proof.Laws.Encoding

/-- The OP byte of an encoded command is its row's and names a command, and its ARG is the command's operands. -/
def Statement (i : Instr) : Prop :=
  opWellFormed (opByte i) = true ∧ opOf (encode i) = opByte i ∧ argOf (encode i) = argWord i

/-- The two fields of a command word put together are read back. -/
theorem fields_of_word (op : Byte) (arg : Wide) :
    opOf (op ++ arg) = op ∧ argOf (op ++ arg) = arg := by
  constructor
  · apply BitVec.eq_of_getLsbD_eq
    intro k hk
    simp only [opOf, BitVec.getLsbD_extractLsb', BitVec.getLsbD_append]
    simp [hk]
  · apply BitVec.eq_of_getLsbD_eq
    intro k hk
    simp only [argOf, BitVec.getLsbD_extractLsb', BitVec.getLsbD_append]
    simp [hk]

theorem opWellFormed_00 : opWellFormed 0x00#8 = true := by decide

theorem opWellFormed_01 : opWellFormed 0x01#8 = true := by decide

theorem opWellFormed_02 : opWellFormed 0x02#8 = true := by decide

theorem opWellFormed_03 : opWellFormed 0x03#8 = true := by decide

theorem opWellFormed_04 : opWellFormed 0x04#8 = true := by decide

theorem opWellFormed_05 : opWellFormed 0x05#8 = true := by decide

theorem opWellFormed_06 : opWellFormed 0x06#8 = true := by decide

theorem load (v : Wide) : Statement (.load v) := ⟨opWellFormed_00, fields_of_word _ _⟩

theorem seed (v : Wide) : Statement (.seed v) := ⟨opWellFormed_01, fields_of_word _ _⟩

theorem seedu64 (n : Word) : Statement (.seedu64 n) := ⟨opWellFormed_02, fields_of_word _ _⟩

theorem next : Statement .next := ⟨opWellFormed_03, fields_of_word _ _⟩

theorem split : Statement .split := ⟨opWellFormed_04, fields_of_word _ _⟩

theorem fill (base : Addr) (len : Word) : Statement (.fill base len) :=
  ⟨opWellFormed_05, fields_of_word _ _⟩

theorem get : Statement .get := ⟨opWellFormed_06, fields_of_word _ _⟩

end Sys2Proof.Laws.Encoding
end

