-- ==== Sys2Proof/Laws/Bits.lean ====
section
/-! SUPPORT. Facts about words, bytes and command words that later proofs cite: the two halves of a 128-bit value,
its bytes, and the decoder on a word given by its two fields. -/

namespace Sys2Proof.Machine

/-- The halves of two words put together. -/
theorem halves_of_append (h l : Word) :
    (h ++ l : BitVec 128).extractLsb' 64 64 = h ∧ (h ++ l : BitVec 128).extractLsb' 0 64 = l := by
  constructor <;>
    · apply BitVec.eq_of_getLsbD_eq
      intro k hk
      simp only [BitVec.getLsbD_extractLsb', BitVec.getLsbD_append]
      simp [hk]

/-- A 128-bit value is its two halves put together. -/
theorem append_of_halves (v : Wide) : (v.extractLsb' 64 64 ++ v.extractLsb' 0 64 : BitVec 128) = v := by
  apply BitVec.eq_of_getLsbD_eq
  intro k hk
  simp only [BitVec.getLsbD_extractLsb', BitVec.getLsbD_append]
  by_cases h : k < 64
  · simp [h]
  · simp [h, show k - 64 < 64 by omega, show 64 + (k - 64) = k by omega]

/-- Two 128-bit values with the same sixteen bytes are equal. -/
theorem eq_of_bytes (u v : Wide) (h : ∀ k < 16, byteOf u k = byteOf v k) : u = v := by
  apply BitVec.eq_of_getLsbD_eq
  intro i hi
  have := congrArg (fun x => x.getLsbD (i % 8)) (h (i / 8) (by omega))
  simpa [byteOf, show i % 8 < 8 by omega, show 8 * (i / 8) + i % 8 = i by omega] using this

/-- Byte `k + 1` of a value that is one more byte long is byte `k` of the rest. -/
theorem byteOf_le128_cons_succ (b : Byte) (bs : List Byte) (k : Nat) (hk : k < 15) :
    byteOf (le128 (b :: bs)) (k + 1) = byteOf (le128 bs) k := by
  apply BitVec.eq_of_getLsbD_eq
  intro i hi
  simp only [byteOf, le128, BitVec.getLsbD_setWidth, BitVec.getLsbD_ushiftRight, BitVec.getLsbD_or,
    BitVec.getLsbD_shiftLeft, hi, decide_true, Bool.true_and]
  rw [show 8 * (k + 1) + i - 8 = 8 * k + i by omega, BitVec.getLsbD_of_ge b _ (by omega)]
  simp [show 8 * (k + 1) + i < 128 by omega, show ¬ 8 * (k + 1) + i < 8 by omega]

theorem byteOf_le128_cons_zero (b : Byte) (bs : List Byte) : byteOf (le128 (b :: bs)) 0 = b := by
  apply BitVec.eq_of_getLsbD_eq
  intro i hi
  simp [byteOf, le128, hi]

/-- `LE128` puts byte `k` of the sequence at byte `k` of the number. -/
theorem byteOf_le128 (bs : List Byte) (hl : bs.length ≤ 16) (k : Nat) (hk : k < bs.length) :
    byteOf (le128 bs) k = bs[k] := by
  induction bs generalizing k with
  | nil => simp at hk
  | cons b bs ih =>
    simp only [List.length_cons] at hl hk
    cases k with
    | zero => simpa using byteOf_le128_cons_zero b bs
    | succ k =>
      rw [byteOf_le128_cons_succ b bs k (by omega)]
      exact ih (by omega) k (by omega)

/-- `bswap128` by its bytes. -/
theorem byteOf_bswap128 (v : Wide) (k : Nat) (hk : k < 16) : byteOf (bswap128 v) k = byteOf v (15 - k) := by
  unfold bswap128
  rw [byteOf_le128 _ (by simp [leBytes128]) _ (by simpa [leBytes128] using hk)]
  simp [leBytes128]

theorem length_leBytes64 (x : Word) : (leBytes64 x).length = 8 := by simp [leBytes64]

theorem getElem?_leBytes64 (x : Word) (k : Nat) (h : k < 8) : (leBytes64 x)[k]? = some (byteOf x k) := by
  simp [leBytes64, h]

end Sys2Proof.Machine

namespace Sys2Proof

/-- A command word is its two fields put together. -/
theorem word_of_fields (w : CommandWord) : w = opOf w ++ argOf w := by
  apply BitVec.eq_of_getLsbD_eq
  intro k hk
  simp only [opOf, argOf, BitVec.getLsbD_extractLsb', BitVec.getLsbD_append]
  by_cases h : k < 128
  · simp [h]
  · simp [h, show k - 128 < 8 by omega, show 128 + (k - 128) = k by omega]

/-- The decoder on a word given by its two fields. -/
theorem decode_of_fields (op : Byte) (arg : Wide) :
    decode (op ++ arg) = if opReservedClear op then
      match (op.extractLsb' 0 3).toNat with
      | 0 => .ok (.load arg)
      | 1 => .ok (.seed arg)
      | 2 => .ok (.seedu64 (argN arg))
      | 3 => .ok .next
      | 4 => .ok .split
      | 5 => .ok (.fill (argBase arg) (argLen arg))
      | 6 => .ok .get
      | _ => .error .reservedOpcode
    else .error .illegalOp := by
  obtain ⟨ho, ha⟩ := Laws.Encoding.fields_of_word op arg
  exact (congrArg₂ (fun o a => if opReservedClear o then
      match (o.extractLsb' 0 3).toNat with
      | 0 => Except.ok (Instr.load a)
      | 1 => .ok (.seed a)
      | 2 => .ok (.seedu64 (argN a))
      | 3 => .ok .next
      | 4 => .ok .split
      | 5 => .ok (.fill (argBase a) (argLen a))
      | 6 => .ok .get
      | _ => .error DecodeError.reservedOpcode
    else .error DecodeError.illegalOp) ho ha)

end Sys2Proof
end

