-- ==== Sys2Proof/Laws/State.lean ====
section
/-! SUPPORT. One lemma per field and per update of the state, true by unfolding, so that no proof unfolds an update. -/

namespace Sys2Proof.Machine

@[simp] theorem State.setGen_cfg (s : State) (k : Nat) (v : Wide) : (s.setGen k v).cfg = s.cfg := rfl
@[simp] theorem State.setGen_gens (s : State) (k : Nat) (v : Wide) : (s.setGen k v).gens = insertKey k v s.gens := rfl
@[simp] theorem State.setGen_jobs (s : State) (k : Nat) (v : Wide) : (s.setGen k v).jobs = s.jobs := rfl
@[simp] theorem State.setGen_stuck (s : State) (k : Nat) (v : Wide) : (s.setGen k v).stuck = s.stuck := rfl
@[simp] theorem State.setGen_mem (s : State) (k : Nat) (v : Wide) : (s.setGen k v).mem = s.mem := rfl
@[simp] theorem State.setGen_commands (s : State) (k : Nat) (v : Wide) : (s.setGen k v).commands = s.commands := rfl
@[simp] theorem State.setGen_responses (s : State) (k : Nat) (v : Wide) : (s.setGen k v).responses = s.responses := rfl
@[simp] theorem State.setGen_inputs (s : State) (k : Nat) (v : Wide) : (s.setGen k v).inputs = s.inputs := rfl
@[simp] theorem State.setGen_cur (s : State) (k : Nat) (v : Wide) : (s.setGen k v).cur = s.cur := rfl
@[simp] theorem State.setGen_fresh (s : State) (k : Nat) (v : Wide) : (s.setGen k v).fresh = s.fresh := rfl

@[simp] theorem State.setJob_cfg (s : State) (k : Nat) (j : FillJob) : (s.setJob k j).cfg = s.cfg := rfl
@[simp] theorem State.setJob_gens (s : State) (k : Nat) (j : FillJob) : (s.setJob k j).gens = s.gens := rfl
@[simp] theorem State.setJob_jobs (s : State) (k : Nat) (j : FillJob) : (s.setJob k j).jobs =
    insertKey k j s.jobs := rfl
@[simp] theorem State.setJob_stuck (s : State) (k : Nat) (j : FillJob) : (s.setJob k j).stuck = s.stuck := rfl
@[simp] theorem State.setJob_mem (s : State) (k : Nat) (j : FillJob) : (s.setJob k j).mem = s.mem := rfl
@[simp] theorem State.setJob_commands (s : State) (k : Nat) (j : FillJob) : (s.setJob k j).commands = s.commands := rfl
@[simp] theorem State.setJob_responses (s : State) (k : Nat) (j : FillJob) : (s.setJob k j).responses =
    s.responses := rfl
@[simp] theorem State.setJob_inputs (s : State) (k : Nat) (j : FillJob) : (s.setJob k j).inputs = s.inputs := rfl
@[simp] theorem State.setJob_cur (s : State) (k : Nat) (j : FillJob) : (s.setJob k j).cur = s.cur := rfl
@[simp] theorem State.setJob_fresh (s : State) (k : Nat) (j : FillJob) : (s.setJob k j).fresh = s.fresh := rfl

@[simp] theorem State.dropJob_cfg (s : State) (k : Nat) : (s.dropJob k).cfg = s.cfg := rfl
@[simp] theorem State.dropJob_gens (s : State) (k : Nat) : (s.dropJob k).gens = s.gens := rfl
@[simp] theorem State.dropJob_jobs (s : State) (k : Nat) : (s.dropJob k).jobs = eraseKey k s.jobs := rfl
@[simp] theorem State.dropJob_stuck (s : State) (k : Nat) : (s.dropJob k).stuck = s.stuck := rfl
@[simp] theorem State.dropJob_mem (s : State) (k : Nat) : (s.dropJob k).mem = s.mem := rfl
@[simp] theorem State.dropJob_commands (s : State) (k : Nat) : (s.dropJob k).commands = s.commands := rfl
@[simp] theorem State.dropJob_responses (s : State) (k : Nat) : (s.dropJob k).responses = s.responses := rfl
@[simp] theorem State.dropJob_inputs (s : State) (k : Nat) : (s.dropJob k).inputs = s.inputs := rfl
@[simp] theorem State.dropJob_cur (s : State) (k : Nat) : (s.dropJob k).cur = s.cur := rfl
@[simp] theorem State.dropJob_fresh (s : State) (k : Nat) : (s.dropJob k).fresh = s.fresh := rfl

@[simp] theorem State.writeByte_cfg (s : State) (a : Addr) (b : Byte) : (s.writeByte a b).cfg = s.cfg := rfl
@[simp] theorem State.writeByte_gens (s : State) (a : Addr) (b : Byte) : (s.writeByte a b).gens = s.gens := rfl
@[simp] theorem State.writeByte_jobs (s : State) (a : Addr) (b : Byte) : (s.writeByte a b).jobs = s.jobs := rfl
@[simp] theorem State.writeByte_stuck (s : State) (a : Addr) (b : Byte) : (s.writeByte a b).stuck = s.stuck := rfl
@[simp] theorem State.writeByte_mem (s : State) (a : Addr) (b : Byte) : (s.writeByte a b).mem =
    memWrite a b s.mem := rfl
@[simp] theorem State.writeByte_commands (s : State) (a : Addr) (b : Byte) : (s.writeByte a b).commands =
    s.commands := rfl
@[simp] theorem State.writeByte_responses (s : State) (a : Addr) (b : Byte) : (s.writeByte a b).responses =
    s.responses := rfl
@[simp] theorem State.writeByte_inputs (s : State) (a : Addr) (b : Byte) : (s.writeByte a b).inputs = s.inputs := rfl
@[simp] theorem State.writeByte_cur (s : State) (a : Addr) (b : Byte) : (s.writeByte a b).cur = s.cur := rfl
@[simp] theorem State.writeByte_fresh (s : State) (a : Addr) (b : Byte) : (s.writeByte a b).fresh = s.fresh := rfl

@[simp] theorem State.writeBytes_cfg (s : State) (a : Addr) (bs : List Byte) : (s.writeBytes a bs).cfg = s.cfg := rfl
@[simp] theorem State.writeBytes_gens (s : State) (a : Addr) (bs : List Byte) : (s.writeBytes a bs).gens =
    s.gens := rfl
@[simp] theorem State.writeBytes_jobs (s : State) (a : Addr) (bs : List Byte) : (s.writeBytes a bs).jobs =
    s.jobs := rfl
@[simp] theorem State.writeBytes_stuck (s : State) (a : Addr) (bs : List Byte) : (s.writeBytes a bs).stuck =
    s.stuck := rfl
@[simp] theorem State.writeBytes_mem (s : State) (a : Addr) (bs : List Byte) : (s.writeBytes a bs).mem =
    memWriteBytes a bs s.mem := rfl
@[simp] theorem State.writeBytes_commands (s : State) (a : Addr) (bs : List Byte) : (s.writeBytes a bs).commands =
    s.commands := rfl
@[simp] theorem State.writeBytes_responses (s : State) (a : Addr) (bs : List Byte) : (s.writeBytes a bs).responses =
    s.responses := rfl
@[simp] theorem State.writeBytes_inputs (s : State) (a : Addr) (bs : List Byte) : (s.writeBytes a bs).inputs =
    s.inputs := rfl
@[simp] theorem State.writeBytes_cur (s : State) (a : Addr) (bs : List Byte) : (s.writeBytes a bs).cur = s.cur := rfl
@[simp] theorem State.writeBytes_fresh (s : State) (a : Addr) (bs : List Byte) : (s.writeBytes a bs).fresh =
    s.fresh := rfl

@[simp] theorem State.answer_cfg (s : State) (e : Status) (d : Wide) : (s.answer e d).cfg = s.cfg := rfl
@[simp] theorem State.answer_gens (s : State) (e : Status) (d : Wide) : (s.answer e d).gens = s.gens := rfl
@[simp] theorem State.answer_jobs (s : State) (e : Status) (d : Wide) : (s.answer e d).jobs = s.jobs := rfl
@[simp] theorem State.answer_stuck (s : State) (e : Status) (d : Wide) : (s.answer e d).stuck = s.stuck := rfl
@[simp] theorem State.answer_mem (s : State) (e : Status) (d : Wide) : (s.answer e d).mem = s.mem := rfl
@[simp] theorem State.answer_commands (s : State) (e : Status) (d : Wide) : (s.answer e d).commands = s.commands := rfl
@[simp] theorem State.answer_responses (s : State) (e : Status) (d : Wide) : (s.answer e d).responses =
    s.responses ++ [{ port := s.cur, status := e, data := d }] := rfl
@[simp] theorem State.answer_inputs (s : State) (e : Status) (d : Wide) : (s.answer e d).inputs = s.inputs := rfl
@[simp] theorem State.answer_cur (s : State) (e : Status) (d : Wide) : (s.answer e d).cur = s.cur := rfl
@[simp] theorem State.answer_fresh (s : State) (e : Status) (d : Wide) : (s.answer e d).fresh = s.fresh := rfl

@[simp] theorem State.accept_cfg (s : State) (k : Nat) (rest : List (Nat × CommandWord)) : (s.accept k rest).cfg =
    s.cfg := rfl
@[simp] theorem State.accept_gens (s : State) (k : Nat) (rest : List (Nat × CommandWord)) : (s.accept k rest).gens =
    s.gens := rfl
@[simp] theorem State.accept_jobs (s : State) (k : Nat) (rest : List (Nat × CommandWord)) : (s.accept k rest).jobs =
    s.jobs := rfl
@[simp] theorem State.accept_stuck (s : State) (k : Nat) (rest : List (Nat × CommandWord)) : (s.accept k rest).stuck =
    s.stuck := rfl
@[simp] theorem State.accept_mem (s : State) (k : Nat) (rest : List (Nat × CommandWord)) : (s.accept k rest).mem =
    s.mem := rfl
@[simp] theorem State.accept_commands (s : State) (k : Nat) (rest : List (Nat × CommandWord)) : (s.accept k rest).commands =
    rest := rfl
@[simp] theorem State.accept_responses (s : State) (k : Nat) (rest : List (Nat × CommandWord)) : (s.accept k rest).responses =
    s.responses := rfl
@[simp] theorem State.accept_inputs (s : State) (k : Nat) (rest : List (Nat × CommandWord)) : (s.accept k rest).inputs =
    s.inputs := rfl
@[simp] theorem State.accept_cur (s : State) (k : Nat) (rest : List (Nat × CommandWord)) : (s.accept k rest).cur =
    k := rfl
@[simp] theorem State.accept_fresh (s : State) (k : Nat) (rest : List (Nat × CommandWord)) : (s.accept k rest).fresh =
    s.fresh + 1 := rfl

@[simp] theorem State.stick_cfg (s : State) (f : StuckFill) : (s.stick f).cfg = s.cfg := rfl
@[simp] theorem State.stick_gens (s : State) (f : StuckFill) : (s.stick f).gens =
    insertKey s.cur (zeroFix (Config.freeState s.fresh)) s.gens := rfl
@[simp] theorem State.stick_jobs (s : State) (f : StuckFill) : (s.stick f).jobs = s.jobs := rfl
@[simp] theorem State.stick_stuck (s : State) (f : StuckFill) : (s.stick f).stuck = insertKey s.cur f s.stuck := rfl
@[simp] theorem State.stick_mem (s : State) (f : StuckFill) : (s.stick f).mem =
    memForget f.base (writableReach s.cfg f.base f.len.toNat) s.mem := rfl
@[simp] theorem State.stick_commands (s : State) (f : StuckFill) : (s.stick f).commands = s.commands := rfl
@[simp] theorem State.stick_responses (s : State) (f : StuckFill) : (s.stick f).responses = s.responses := rfl
@[simp] theorem State.stick_inputs (s : State) (f : StuckFill) : (s.stick f).inputs = s.inputs := rfl
@[simp] theorem State.stick_cur (s : State) (f : StuckFill) : (s.stick f).cur = s.cur := rfl
@[simp] theorem State.stick_fresh (s : State) (f : StuckFill) : (s.stick f).fresh = s.fresh := rfl

@[simp] theorem State.resetInstance_cfg (s : State) (k : Nat) : (s.resetInstance k).cfg = s.cfg := rfl
@[simp] theorem State.resetInstance_gens (s : State) (k : Nat) : (s.resetInstance k).gens = eraseKey k s.gens := rfl
@[simp] theorem State.resetInstance_jobs (s : State) (k : Nat) : (s.resetInstance k).jobs = eraseKey k s.jobs := rfl
@[simp] theorem State.resetInstance_stuck (s : State) (k : Nat) : (s.resetInstance k).stuck = eraseKey k s.stuck := rfl
@[simp] theorem State.resetInstance_mem (s : State) (k : Nat) : (s.resetInstance k).mem = s.mem := rfl
@[simp] theorem State.resetInstance_commands (s : State) (k : Nat) : (s.resetInstance k).commands = s.commands := rfl
@[simp] theorem State.resetInstance_responses (s : State) (k : Nat) : (s.resetInstance k).responses =
    s.responses := rfl
@[simp] theorem State.resetInstance_inputs (s : State) (k : Nat) : (s.resetInstance k).inputs = s.inputs := rfl
@[simp] theorem State.resetInstance_cur (s : State) (k : Nat) : (s.resetInstance k).cur = s.cur := rfl
@[simp] theorem State.resetInstance_fresh (s : State) (k : Nat) : (s.resetInstance k).fresh = s.fresh := rfl

@[simp] theorem State.placeCommand_cfg (s : State) (w : CommandWord) : (s.placeCommand w).cfg = s.cfg := rfl
@[simp] theorem State.placeCommand_gens (s : State) (w : CommandWord) : (s.placeCommand w).gens = s.gens := rfl
@[simp] theorem State.placeCommand_jobs (s : State) (w : CommandWord) : (s.placeCommand w).jobs = [] := rfl
@[simp] theorem State.placeCommand_stuck (s : State) (w : CommandWord) : (s.placeCommand w).stuck =
    eraseKey s.cur s.stuck := rfl
@[simp] theorem State.placeCommand_mem (s : State) (w : CommandWord) : (s.placeCommand w).mem = s.mem := rfl
@[simp] theorem State.placeCommand_commands (s : State) (w : CommandWord) : (s.placeCommand w).commands =
    (s.cur, w) :: s.commands := rfl
@[simp] theorem State.placeCommand_responses (s : State) (w : CommandWord) : (s.placeCommand w).responses =
    s.responses := rfl
@[simp] theorem State.placeCommand_inputs (s : State) (w : CommandWord) : (s.placeCommand w).inputs = [] := rfl
@[simp] theorem State.placeCommand_cur (s : State) (w : CommandWord) : (s.placeCommand w).cur = s.cur := rfl
@[simp] theorem State.placeCommand_fresh (s : State) (w : CommandWord) : (s.placeCommand w).fresh = s.fresh := rfl

end Sys2Proof.Machine
end

