-- ==== Sys2Proof/Laws/Table.lean ====
section
/-! SUPPORT. The laws of the tables: read after write, read after erase, and that both keep the canonical form. -/

namespace Sys2Proof.Machine

variable {α : Type}

@[simp] theorem lookupKey_nil (k : Nat) : lookupKey k ([] : List (Nat × α)) = none := rfl

/-- A table with `k` listed as `v` reads `v` at `k` and as before everywhere else. -/
theorem lookupKey_insertKey (j k : Nat) (v : α) (t : List (Nat × α)) :
    lookupKey j (insertKey k v t) = if j = k then some v else lookupKey j t := by
  induction t with
  | nil => by_cases h : j = k <;> simp [insertKey, lookupKey, h, Ne.symm]
  | cons c t ih =>
    by_cases hj : j = k
    · subst hj
      by_cases h1 : j < c.1
      · simp [insertKey, h1, lookupKey]
      · by_cases h2 : j = c.1
        · simp [insertKey, ← h2, lookupKey]
        · simp [insertKey, h1, h2, lookupKey, Ne.symm h2, ih]
    · by_cases h1 : k < c.1
      · simp [insertKey, h1, lookupKey, hj, Ne.symm hj]
      · by_cases h2 : k = c.1
        · simp [insertKey, ← h2, lookupKey, hj, Ne.symm hj]
        · by_cases h3 : c.1 = j
          · rw [insertKey, if_neg h1, if_neg h2]
            simp [lookupKey, h3, hj]
          · simp [insertKey, h1, h2, lookupKey, h3, ih]

@[simp] theorem lookupKey_insertKey_self (k : Nat) (v : α) (t : List (Nat × α)) :
    lookupKey k (insertKey k v t) = some v := by
  simp [lookupKey_insertKey]

theorem lookupKey_insertKey_ne {j k : Nat} (h : j ≠ k) (v : α) (t : List (Nat × α)) :
    lookupKey j (insertKey k v t) = lookupKey j t := by
  simp [lookupKey_insertKey, h]

/-- A table with `k` erased has no value at `k` and reads as before everywhere else. -/
theorem lookupKey_eraseKey (j k : Nat) (t : List (Nat × α)) :
    lookupKey j (eraseKey k t) = if j = k then none else lookupKey j t := by
  induction t with
  | nil => simp [eraseKey]
  | cons c t ih =>
    unfold eraseKey at ih ⊢
    by_cases h : c.1 = k
    · by_cases hj : j = k
      · simpa [h, hj] using ih
      · simpa [h, lookupKey, hj, Ne.symm hj] using ih
    · by_cases h2 : c.1 = j
      · simp [h2, lookupKey, h2 ▸ h]
      · by_cases hj : j = k
        · simpa [h, h2, lookupKey, hj] using ih
        · simpa [h, h2, lookupKey, hj] using ih

@[simp] theorem lookupKey_eraseKey_self (k : Nat) (t : List (Nat × α)) :
    lookupKey k (eraseKey k t) = none := by
  simp [lookupKey_eraseKey]

theorem lookupKey_eraseKey_ne {j k : Nat} (h : j ≠ k) (t : List (Nat × α)) :
    lookupKey j (eraseKey k t) = lookupKey j t := by
  simp [lookupKey_eraseKey, h]

/-- What a table reads at a key it lists as an entry. -/
theorem mem_of_lookupKey {k : Nat} {v : α} {t : List (Nat × α)} (h : lookupKey k t = some v) :
    (k, v) ∈ t := by
  induction t with
  | nil => simp at h
  | cons c t ih =>
    by_cases hc : c.1 = k
    · simp only [lookupKey, hc, if_true, Option.some.injEq] at h
      subst h
      subst hc
      simp
    · simp only [lookupKey, hc, if_false] at h
      exact List.mem_cons_of_mem _ (ih h)

/-- The entries of a table after an insertion: the new one, and old ones. -/
theorem mem_insertKey {c : Nat × α} {k : Nat} {v : α} {t : List (Nat × α)}
    (h : c ∈ insertKey k v t) : c = (k, v) ∨ c ∈ t := by
  induction t with
  | nil => simpa [insertKey] using h
  | cons d t ih =>
    by_cases h1 : k < d.1
    · simpa [insertKey, h1] using h
    · by_cases h2 : k = d.1
      · have h3 : c = (k, v) ∨ c ∈ t := by simpa [insertKey, h1, if_pos h2] using h
        exact h3.imp_right (List.mem_cons_of_mem _)
      · have h3 : c = d ∨ c ∈ insertKey k v t := by simpa [insertKey, h1, h2] using h
        rcases h3 with h3 | h3
        · exact .inr (by simp [h3])
        · exact (ih h3).imp_right (List.mem_cons_of_mem _)

/-- The entries of a table after an erasure are old ones at other keys. -/
theorem mem_eraseKey {c : Nat × α} {k : Nat} {t : List (Nat × α)} :
    c ∈ eraseKey k t ↔ c ∈ t ∧ c.1 ≠ k := by
  simp [eraseKey]

/-- An insertion keeps the canonical form. -/
theorem tableWf_insertKey {k : Nat} {v : α} {t : List (Nat × α)} (h : tableWf t) :
    tableWf (insertKey k v t) := by
  induction t with
  | nil => simp [insertKey]
  | cons d t ih =>
    obtain ⟨hd, ht⟩ := List.pairwise_cons.mp h
    by_cases h1 : k < d.1
    · simp only [insertKey, h1, if_true, tableWf, List.pairwise_cons]
      refine ⟨fun c hc => ?_, hd, ht⟩
      rcases List.mem_cons.mp hc with rfl | hc
      · exact h1
      · exact h1.trans (hd c hc)
    · by_cases h2 : k = d.1
      · rw [insertKey, if_neg h1, if_pos h2]
        exact List.pairwise_cons.mpr ⟨fun c hc => by simpa [h2] using hd c hc, ht⟩
      · rw [insertKey, if_neg h1, if_neg h2]
        refine List.pairwise_cons.mpr ⟨fun c hc => ?_, ih ht⟩
        rcases mem_insertKey hc with rfl | hc
        · simp only; omega
        · exact hd c hc

/-- An erasure keeps the canonical form. -/
theorem tableWf_eraseKey {k : Nat} {t : List (Nat × α)} (h : tableWf t) : tableWf (eraseKey k t) :=
  List.Pairwise.filter _ h

/-- Erasing a key that is not listed changes nothing. -/
theorem eraseKey_of_lookupKey_none {k : Nat} {t : List (Nat × α)} (h : lookupKey k t = none) :
    eraseKey k t = t := by
  induction t with
  | nil => rfl
  | cons d t ih =>
    by_cases hd : d.1 = k
    · simp [lookupKey, hd] at h
    · have h' : lookupKey k t = none := by simpa [lookupKey, hd] using h
      have := ih h'
      unfold eraseKey at this ⊢
      simp [hd, this]

/-- Writing the same key twice leaves the second value. -/
theorem insertKey_insertKey (k : Nat) (v w : α) (t : List (Nat × α)) :
    insertKey k w (insertKey k v t) = insertKey k w t := by
  induction t with
  | nil => simp [insertKey]
  | cons d t ih =>
    by_cases h1 : k < d.1
    · simp [insertKey, h1]
    · by_cases h2 : k = d.1
      · simp [insertKey, ← h2]
      · simp [insertKey, h1, h2, ih]

/-- Erasing a key just written leaves the table without it. -/
theorem eraseKey_insertKey (k : Nat) (v : α) (t : List (Nat × α)) :
    eraseKey k (insertKey k v t) = eraseKey k t := by
  induction t with
  | nil => simp [insertKey, eraseKey]
  | cons d t ih =>
    unfold eraseKey at ih ⊢
    by_cases h1 : k < d.1
    · simp [insertKey, h1]
    · by_cases h2 : k = d.1
      · simp [insertKey, ← h2]
      · simp [insertKey, h1, h2, Ne.symm h2, ih]

end Sys2Proof.Machine
end

