-- ==== Sys2Proof/Laws/Memory.lean ====
section
/-! SUPPORT. Buffer memory: every memory operation keeps the canonical form, and what a byte reads after a write. -/

namespace Sys2Proof.Machine

/-- One byte write keeps the canonical form. -/
theorem memWf_memWrite {m : List Host.Cell} (h : Memory.wf m) (a : Addr) (b : Byte) :
    Memory.wf (memWrite a b m) := by
  refine ⟨tableWf_insertKey h.1, fun c hc => ?_⟩
  rcases mem_insertKey hc with rfl | hc
  · exact a.isLt
  · exact h.2 c hc

/-- Consecutive byte writes keep the canonical form. -/
theorem memWf_memWriteBytes {m : List Host.Cell} (h : Memory.wf m) (a : Addr) (bs : List Byte) :
    Memory.wf (memWriteBytes a bs m) := by
  induction bs generalizing a m with
  | nil => exact h
  | cons b bs ih => exact ih (memWf_memWrite h a b) _

/-- Leaving bytes without a known value keeps the canonical form. -/
theorem memWf_memForget {m : List Host.Cell} (h : Memory.wf m) (a : Addr) (n : Nat) : Memory.wf (memForget a n m) := by
  induction n generalizing m with
  | zero => exact h
  | succ n ih => exact ih ⟨tableWf_eraseKey h.1, fun c hc => h.2 c (mem_eraseKey.mp hc).1⟩

/-- Leaving bytes without a known value adds none. -/
theorem mem_of_mem_memForget {c : Host.Cell} {m : List Host.Cell} {a : Addr} {n : Nat} (h : c ∈ memForget a n m) :
    c ∈ m := by
  induction n generalizing m with
  | zero => exact h
  | succ n ih => exact (mem_eraseKey.mp (ih h)).1

/-- The first `n` positions have no known value, every other byte reads as before. -/
theorem lookupKey_memForget (c a : Addr) (n : Nat) (m : List Host.Cell) :
    ((∃ j < n, c = bufferAddr a j) → lookupKey c.toNat (memForget a n m) = none) ∧
      ((∀ j < n, c ≠ bufferAddr a j) → lookupKey c.toNat (memForget a n m) = lookupKey c.toNat m) := by
  induction n generalizing m with
  | zero => exact ⟨fun ⟨j, hj, _⟩ => absurd hj (Nat.not_lt_zero j), fun _ => rfl⟩
  | succ n ih =>
    have hn : lookupKey c.toNat (eraseKey (a + BitVec.ofNat 64 n).toNat m)
        = if c = bufferAddr a n then none else lookupKey c.toNat m := by
      rw [lookupKey_eraseKey]
      simp only [BitVec.toNat_inj]
      rfl
    rw [memForget]
    refine ⟨fun ⟨j, hj, hc⟩ => ?_, fun h => ?_⟩
    · by_cases hb : ∃ j < n, c = bufferAddr a j
      · exact (ih _).1 hb
      · push Not at hb
        obtain rfl : j = n := by
          rcases Nat.lt_succ_iff_lt_or_eq.mp hj with h | h
          · exact absurd hc (hb j h)
          · exact h
        rw [(ih _).2 hb, hn, if_pos hc]
    · rw [(ih _).2 fun j hj => h j (by omega), hn, if_neg (h n (by omega))]

/-- The memory of the reset state is in canonical form. -/
theorem memWf_reset : Memory.wf State.reset.mem := by decide

/-- A byte write is read back at its address and nowhere else. -/
theorem lookupKey_memWrite (c a : Addr) (b : Byte) (m : List Host.Cell) :
    lookupKey c.toNat (memWrite a b m) = if c = a then some b else lookupKey c.toNat m := by
  simp [memWrite, lookupKey_insertKey, BitVec.toNat_inj]

/-- A byte written is the byte read, and every other byte is as before. -/
theorem readByte_writeByte (s : State) (c a : Addr) (b : Byte) :
    (s.writeByte a b).readByte c = if c = a then some b else s.readByte c :=
  lookupKey_memWrite c a b s.mem

/-- The address one past buffer position `j` is position `j + 1`. -/
theorem bufferAddr_succ (a : Addr) (j : Nat) : bufferAddr (a + 1#64) j = bufferAddr a (j + 1) := by
  simp only [bufferAddr, BitVec.ofNat_add]
  ac_rfl

@[simp] theorem bufferAddr_zero (a : Addr) : bufferAddr a 0 = a := by simp [bufferAddr]

/-- Buffer positions below 2^64 are distinct addresses. -/
theorem bufferAddr_inj {a : Addr} {i j : Nat} (hi : i < 2 ^ 64) (hj : j < 2 ^ 64)
    (h : bufferAddr a i = bufferAddr a j) : i = j := by
  have := congrArg BitVec.toNat h
  simp only [bufferAddr, BitVec.toNat_add, BitVec.toNat_ofNat] at this
  have := a.isLt
  omega

/-- A byte outside the addresses written reads as before. -/
theorem lookupKey_memWriteBytes_outside (c a : Addr) (bs : List Byte) (m : List Host.Cell)
    (h : ∀ j < bs.length, c ≠ bufferAddr a j) :
    lookupKey c.toNat (memWriteBytes a bs m) = lookupKey c.toNat m := by
  induction bs generalizing a m with
  | nil => rfl
  | cons b bs ih =>
    have h0 : c ≠ a := by simpa using h 0 (by simp)
    rw [memWriteBytes, ih, lookupKey_memWrite, if_neg h0]
    intro j hj
    rw [bufferAddr_succ]
    exact h (j + 1) (by simpa using hj)

/-- A run of bytes no longer than the address space is read back byte by byte. -/
theorem lookupKey_memWriteBytes_inside (a : Addr) (bs : List Byte) (m : List Host.Cell)
    (hl : bs.length ≤ 2 ^ 64) {j : Nat} (hj : j < bs.length) :
    lookupKey (bufferAddr a j).toNat (memWriteBytes a bs m) = some bs[j] := by
  induction bs generalizing a m j with
  | nil => simp at hj
  | cons b bs ih =>
    rw [memWriteBytes]
    cases j with
    | zero =>
      rw [bufferAddr_zero, lookupKey_memWriteBytes_outside, lookupKey_memWrite]
      · simp
      · intro i hi he
        rw [bufferAddr_succ, ← bufferAddr_zero a, bufferAddr_zero a] at he
        have hi' : i + 1 < 2 ^ 64 := by simp at hl; omega
        have := bufferAddr_inj (a := a) (i := 0) (by norm_num) hi' (by simpa using he)
        omega
    | succ j =>
      have := ih (a + 1#64) (memWrite a b m) (by simp at hl; omega) (j := j) (by simpa using hj)
      rw [bufferAddr_succ] at this
      simpa using this

/-- Writing bytes one after the other is writing them in two runs. -/
theorem memWriteBytes_append (a : Addr) (bs cs : List Byte) (m : List Host.Cell) :
    memWriteBytes a (bs ++ cs) m
      = memWriteBytes (bufferAddr a bs.length) cs (memWriteBytes a bs m) := by
  induction bs generalizing a m with
  | nil => simp [memWriteBytes]
  | cons b bs ih => simp [memWriteBytes, ih, bufferAddr_succ]

end Sys2Proof.Machine
end

