-- ==== Sys2Proof/Laws/Ops.lean ====
section
/-! SUPPORT. What each shared operation can do, said once: the checks that end a command early, and the ends of a
command. -/

namespace Sys2Proof.Machine

@[simp] theorem State.genOf_setGen (s : State) (j k : Nat) (v : Wide) :
    (s.setGen k v).genOf j = if j = k then some v else s.genOf j :=
  lookupKey_insertKey j k v s.gens

@[simp] theorem State.genOf_answer (s : State) (j : Nat) (e : Status) (d : Wide) :
    (s.answer e d).genOf j = s.genOf j := rfl

@[simp] theorem State.genOf_writeBytes (s : State) (j : Nat) (a : Addr) (bs : List Byte) :
    (s.writeBytes a bs).genOf j = s.genOf j := rfl

@[simp] theorem State.genOf_setJob (s : State) (i k : Nat) (j : FillJob) :
    (s.setJob k j).genOf i = s.genOf i := rfl

@[simp] theorem State.genOf_dropJob (s : State) (i k : Nat) : (s.dropJob k).genOf i = s.genOf i := rfl

@[simp] theorem State.genOf_resetInstance (s : State) (j k : Nat) :
    (s.resetInstance k).genOf j = if j = k then none else s.genOf j :=
  lookupKey_eraseKey j k s.gens

@[simp] theorem State.jobOf_setJob (s : State) (i k : Nat) (j : FillJob) :
    (s.setJob k j).jobOf i = if i = k then some j else s.jobOf i :=
  lookupKey_insertKey i k j s.jobs

@[simp] theorem State.jobOf_dropJob (s : State) (i k : Nat) :
    (s.dropJob k).jobOf i = if i = k then none else s.jobOf i :=
  lookupKey_eraseKey i k s.jobs

@[simp] theorem State.jobOf_resetInstance (s : State) (i k : Nat) :
    (s.resetInstance k).jobOf i = if i = k then none else s.jobOf i :=
  lookupKey_eraseKey i k s.jobs

@[simp] theorem State.jobOf_setGen (s : State) (i k : Nat) (v : Wide) :
    (s.setGen k v).jobOf i = s.jobOf i := rfl

@[simp] theorem State.jobOf_answer (s : State) (i : Nat) (e : Status) (d : Wide) :
    (s.answer e d).jobOf i = s.jobOf i := rfl

@[simp] theorem State.genOf_accept (s : State) (j k : Nat) (rest : List (Nat × CommandWord)) :
    (s.accept k rest).genOf j = s.genOf j := rfl

@[simp] theorem State.genOf_stick (s : State) (j : Nat) (f : StuckFill) :
    (s.stick f).genOf j = if j = s.cur then some (zeroFix (Config.freeState s.fresh)) else s.genOf j :=
  lookupKey_insertKey j s.cur _ s.gens

@[simp] theorem State.jobOf_accept (s : State) (i k : Nat) (rest : List (Nat × CommandWord)) :
    (s.accept k rest).jobOf i = s.jobOf i := rfl

@[simp] theorem State.jobOf_stick (s : State) (i : Nat) (f : StuckFill) : (s.stick f).jobOf i = s.jobOf i := rfl

@[simp] theorem State.stuckOf_setGen (s : State) (i k : Nat) (v : Wide) :
    (s.setGen k v).stuckOf i = s.stuckOf i := rfl

@[simp] theorem State.stuckOf_answer (s : State) (i : Nat) (e : Status) (d : Wide) :
    (s.answer e d).stuckOf i = s.stuckOf i := rfl

@[simp] theorem State.stuckOf_setJob (s : State) (i k : Nat) (j : FillJob) :
    (s.setJob k j).stuckOf i = s.stuckOf i := rfl

@[simp] theorem State.stuckOf_dropJob (s : State) (i k : Nat) : (s.dropJob k).stuckOf i = s.stuckOf i := rfl

@[simp] theorem State.stuckOf_accept (s : State) (i k : Nat) (rest : List (Nat × CommandWord)) :
    (s.accept k rest).stuckOf i = s.stuckOf i := rfl

@[simp] theorem State.stuckOf_stick (s : State) (i : Nat) (f : StuckFill) :
    (s.stick f).stuckOf i = if i = s.cur then some f else s.stuckOf i :=
  lookupKey_insertKey i s.cur f s.stuck

@[simp] theorem State.stuckOf_resetInstance (s : State) (i k : Nat) :
    (s.resetInstance k).stuckOf i = if i = k then none else s.stuckOf i :=
  lookupKey_eraseKey i k s.stuck

/-- The state check: without a generator the command is refused with E_NOSTATE, with one it goes on. -/
theorem withGen_cases (s : State) (rest : Wide → Answer) :
    (s.genOf s.cur = none ∧ withGen s rest = raise .eNoState s) ∨
      ∃ g, s.genOf s.cur = some g ∧ withGen s rest = rest g := by
  cases h : s.genOf s.cur with
  | none => exact .inl ⟨rfl, by simp [withGen, h]⟩
  | some g => exact .inr ⟨g, rfl, by simp [withGen, h]⟩

theorem withGen_some {s : State} {g : Wide} (h : s.genOf s.cur = some g) (rest : Wide → Answer) :
    withGen s rest = rest g := by simp [withGen, h]

theorem withGen_none {s : State} (h : s.genOf s.cur = none) (rest : Wide → Answer) :
    withGen s rest = raise .eNoState s := by simp [withGen, h]

/-- The checks of FILL: E_NOSTATE, E_RANGE, stuck, or the command goes on. -/
theorem withBuffer_cases (base : Addr) (len : Word) (s : State) (rest : Wide → Answer) :
    (s.genOf s.cur = none ∧ withBuffer base len s rest = raise .eNoState s) ∨
      ∃ g, s.genOf s.cur = some g ∧
        ((bufferWraps base len = true ∧ withBuffer base len s rest = raise .eRange s) ∨
          (bufferWraps base len = false ∧ bufferWritable s.cfg base len.toNat = false ∧
            withBuffer base len s rest = .fault .bufferNotWritable) ∨
          (bufferWraps base len = false ∧ bufferWritable s.cfg base len.toNat = true ∧
            withBuffer base len s rest = rest g)) := by
  rcases withGen_cases s (fun g => if bufferWraps base len then raise .eRange s
    else if bufferWritable s.cfg base len.toNat then rest g else .fault .bufferNotWritable)
    with ⟨h, he⟩ | ⟨g, h, he⟩
  · exact .inl ⟨h, he⟩
  · refine .inr ⟨g, h, ?_⟩
    unfold withBuffer
    rw [he]
    cases bufferWraps base len <;> cases bufferWritable s.cfg base len.toNat <;> simp

/-- `bufferWritable` says that every position of the buffer is writable. -/
theorem bufferWritable_iff (c : Config) (base : Addr) (n : Nat) :
    bufferWritable c base n = true ↔ ∀ j < n, c.isWritable (bufferAddr base j) = true := by
  induction n with
  | zero => simp [bufferWritable]
  | succ n ih =>
    simp only [bufferWritable, Bool.and_eq_true, ih]
    refine ⟨fun h j hj => ?_, fun h => ⟨fun j hj => h j (by omega), h n (by omega)⟩⟩
    rcases Nat.lt_succ_iff_lt_or_eq.mp hj with hj | rfl
    · exact h.1 j hj
    · exact h.2

theorem writableReach_le (c : Config) (base : Addr) (n : Nat) : writableReach c base n ≤ n := by
  induction n with
  | zero => exact le_refl _
  | succ n ih =>
    simp only [writableReach]
    split <;> omega

/-- Every position below the reach of a buffer is writable. -/
theorem isWritable_of_lt_writableReach (c : Config) (base : Addr) (n : Nat) {j : Nat}
    (h : j < writableReach c base n) : c.isWritable (bufferAddr base j) = true := by
  induction n with
  | zero => exact absurd h (Nat.not_lt_zero j)
  | succ n ih =>
    simp only [writableReach] at h
    split at h
    · rename_i hr
      rcases Nat.lt_succ_iff_lt_or_eq.mp h with hj | rfl
      · exact ih (by omega)
      · exact hr.2
    · exact ih h

/-- A command stops only as a FILL, of a valid instance and within the address space, of which some byte is not
writable. -/
theorem withBuffer_fault {base : Addr} {len : Word} {s : State} {rest : Wide → Answer} {r : Fault}
    (hr : ∀ g, rest g ≠ .fault r) (h : withBuffer base len s rest = .fault r) :
    r = .bufferNotWritable ∧ ∃ g, s.genOf s.cur = some g ∧ bufferWraps base len = false ∧
      bufferWritable s.cfg base len.toNat = false := by
  rcases withBuffer_cases base len s rest with ⟨-, he⟩ | ⟨g, hg, ⟨-, he⟩ | ⟨hw, hb, he⟩ | ⟨-, -, he⟩⟩ <;> rw [he] at h
  · cases h
  · cases h
  · injection h with h
    exact ⟨h.symm, g, hg, hw, hb⟩
  · exact absurd h (hr g)

/-- What a command can answer: an error response and nothing else; its effect with an OK response; or, for a FILL
over memory that is not writable, no step. -/
inductive CommandAnswer (s : State) : Answer → Prop where
  | refused (e : Status) (he : e ≠ .ok) : CommandAnswer s (.next (s.answer e 0#128))
  | read (d : Wide) : CommandAnswer s (.next (s.answer .ok d))
  | advanced (g d : Wide) : CommandAnswer s (.next ((s.setGen s.cur g).answer .ok d))
  | filled (base : Addr) (bs : List Byte) (g : Wide) :
      CommandAnswer s (.next (((s.writeBytes base bs).setGen s.cur g).answer .ok 0#128))
  | stuck : CommandAnswer s (.fault .bufferNotWritable)

theorem commandAnswer_withGen {s : State} {rest : Wide → Answer}
    (h : ∀ g, s.genOf s.cur = some g → CommandAnswer s (rest g)) : CommandAnswer s (withGen s rest) := by
  rcases withGen_cases s rest with ⟨-, he⟩ | ⟨g, hg, he⟩ <;> rw [he]
  · exact .refused _ (by decide)
  · exact h g hg

theorem commandAnswer_withBuffer {base : Addr} {len : Word} {s : State} {rest : Wide → Answer}
    (h : ∀ g, s.genOf s.cur = some g → CommandAnswer s (rest g)) :
    CommandAnswer s (withBuffer base len s rest) := by
  refine commandAnswer_withGen fun g hg => ?_
  split
  · exact .refused _ (by decide)
  · split
    · exact h g hg
    · exact .stuck

/-- Every command answers in one of these ways. -/
theorem exec_commandAnswer (i : Instr) (s : State) : CommandAnswer s (exec i s) := by
  cases i with
  | load v =>
    change CommandAnswer s (if _ then _ else _)
    split
    · exact .refused _ (by decide)
    · exact .advanced _ _
  | seed v => exact .advanced _ _
  | seedu64 n => exact .advanced _ _
  | next => exact commandAnswer_withGen fun g _ => .advanced _ _
  | split => exact commandAnswer_withGen fun g _ => .advanced _ _
  | fill base len => exact commandAnswer_withBuffer fun g _ => .filled _ _ _
  | get => exact commandAnswer_withGen fun g _ => .read _

end Sys2Proof.Machine
end

