-- ==== Sys2Proof/Laws/Step.lean ====
section
/-! SUPPORT. What a FILL in progress, a command taken up at its port and a step can do, said once: every next state
of `step` is one of the cases of `StepMove`. -/

namespace Sys2Proof.Machine

/-- The iterator state a FILL of `s.cur` has reached after at most `p` moves. -/
def jobRun (p : Nat) (j : FillJob) (s : State) : FillRun :=
  fillRun s.cfg.m64 j.base j.len.toNat (min p (j.len.toNat - j.i)) { gen := j.gen, i := j.i, w := j.w, mem := s.mem }

/-- A FILL run on is either gone with its instance's state, or answered and ended, or standing further on. -/
theorem runJob_cases {p : Nat} {j : FillJob} {s t : State} (h : runJob p j s = .next t) :
    (s.genOf s.cur = none ∧ t = s.dropJob s.cur) ∨
    (∃ g, s.genOf s.cur = some g ∧ j.len.toNat - j.i < p ∧
      t = ((({ s with mem := (jobRun p j s).mem } : State).setGen s.cur (jobRun p j s).gen).dropJob s.cur).answer
        .ok 0#128) ∨
    (∃ g, s.genOf s.cur = some g ∧ p ≤ j.len.toNat - j.i ∧
      t = ({ s with mem := (jobRun p j s).mem } : State).setJob s.cur
        { j with gen := (jobRun p j s).gen, i := (jobRun p j s).i, w := (jobRun p j s).w }) := by
  unfold runJob at h
  cases hg : s.genOf s.cur with
  | none =>
    rw [hg] at h
    injection h with h
    exact .inl ⟨rfl, h.symm⟩
  | some g =>
    rw [hg] at h
    dsimp only at h
    split at h
    · injection h with h
      exact .inr (.inl ⟨g, rfl, ‹_›, h.symm⟩)
    · injection h with h
      exact .inr (.inr ⟨g, rfl, Nat.le_of_not_lt ‹_›, h.symm⟩)

/-- A FILL run on always answers a next state. -/
theorem runJob_next (p : Nat) (j : FillJob) (s : State) : ∃ t, runJob p j s = .next t := by
  unfold runJob
  cases s.genOf s.cur with
  | none => exact ⟨_, rfl⟩
  | some g =>
    dsimp only
    split <;> exact ⟨_, rfl⟩

/-- A command word executed whole is a command, or refused with E_ILLEGAL. -/
theorem execWord_cases (w : CommandWord) (s : State) :
    (∃ e, decode w = .error e ∧ execWord w s = raise .eIllegal s) ∨
      ∃ i, decode w = .ok i ∧ execWord w s = exec i s := by
  unfold execWord
  cases h : decode w with
  | error e => exact .inl ⟨e, rfl, rfl⟩
  | ok i => exact .inr ⟨i, rfl, rfl⟩

/-- A command word at its port is executed whole, or it is a FILL that begins after its checks. -/
theorem startWord_cases (p : Nat) (w : CommandWord) (s : State) :
    startWord p w s = execWord w s ∨
      ∃ base len, decode w = .ok (.fill base len) ∧ startWord p w s = startFill p base len s := by
  unfold startWord execWord
  cases h : decode w with
  | error e => exact .inl rfl
  | ok i =>
    cases i with
    | fill base len => exact .inr ⟨base, len, rfl, rfl⟩
    | _ => exact .inl rfl

/-- The command taken is one held at a ready port, and the others stay in order. -/
theorem takeCommand_some {ready : Nat → Bool} {cs rest : List (Nat × CommandWord)} {c : Nat × CommandWord}
    (h : takeCommand ready cs = some (c, rest)) :
    ready c.1 = true ∧ ∃ before after, cs = before ++ c :: after ∧ rest = before ++ after ∧
      ∀ d ∈ before, ready d.1 = false := by
  induction cs generalizing rest with
  | nil => cases h
  | cons d cs ih =>
    by_cases hd : ready d.1 = true
    · simp only [takeCommand, hd, if_true, Option.some.injEq, Prod.mk.injEq] at h
      obtain ⟨rfl, rfl⟩ := h
      exact ⟨hd, [], cs, rfl, rfl, by simp⟩
    · rw [takeCommand, if_neg hd] at h
      split at h
      · cases h
      · rename_i d' rest' ht
        simp only [Option.some.injEq, Prod.mk.injEq] at h
        obtain ⟨rfl, rfl⟩ := h
        obtain ⟨hr, before, after, h1, h2, h3⟩ := ih ht
        refine ⟨hr, d :: before, after, by rw [h1]; rfl, by rw [h2]; rfl, ?_⟩
        intro e he
        rcases List.mem_cons.mp he with rfl | he
        · simpa using hd
        · exact h3 e he

/-- With nothing ready before it, a command held at a ready port is the one taken. -/
theorem takeCommand_of_split {ready : Nat → Bool} {before after : List (Nat × CommandWord)} {c : Nat × CommandWord}
    (hc : ready c.1 = true) (hb : ∀ d ∈ before, ready d.1 = false) :
    takeCommand ready (before ++ c :: after) = some (c, before ++ after) := by
  induction before with
  | nil => simp [takeCommand, hc]
  | cons d ds ih =>
    have hd := hb d (by simp)
    simp only [List.cons_append, takeCommand, hd, ih fun e he => hb e (by simp [he])]
    rfl

/-- The port passes an answer on, but for a FILL with no step, which leaves the instance stuck. -/
theorem settle_cases (w : CommandWord) (s : State) (a : Answer) :
    settle w s a = a ∨ ∃ base len, a = .fault .bufferNotWritable ∧ decode w = .ok (.fill base len) ∧
      settle w s a = .next (s.stick { base := base, len := len }) := by
  cases a with
  | fault r =>
    cases r with
    | bufferNotWritable =>
      cases hd : decode w with
      | error e => exact .inl (by simp only [settle, hd])
      | ok i =>
        cases i with
        | fill base len => exact .inr ⟨base, len, rfl, rfl, by simp only [settle, hd]⟩
        | _ => exact .inl (by simp only [settle, hd])
    | externNotWritable => exact .inl rfl
  | _ => exact .inl rfl

/-- The ways a command word `w` taken up in `s` answers a next state. -/
inductive TakenMove (w : CommandWord) (s : State) : State → Prop where
  | refused (e : Status) : TakenMove w s (s.answer e 0#128)
  | executed (i : Instr) (t : State) (hd : decode w = .ok i) (ht : exec i s = .next t) : TakenMove w s t
  | began (p : Nat) (base : Addr) (len : Word) (g : Wide) (t : State) (hd : decode w = .ok (.fill base len))
      (hg : s.genOf s.cur = some g) (hr : bufferWraps base len = false)
      (hw : bufferWritable s.cfg base len.toNat = true)
      (ht : runJob p { base := base, len := len, gen := g, i := 0, w := Config.freeShift s.fresh } s = .next t) :
      TakenMove w s t
  | stuck (base : Addr) (len : Word) (g : Wide) (hd : decode w = .ok (.fill base len))
      (hg : s.genOf s.cur = some g) (hr : bufferWraps base len = false)
      (hw : bufferWritable s.cfg base len.toNat = false) : TakenMove w s (s.stick { base := base, len := len })

/-- A command word executed whole, its answer settled, makes one of these moves. -/
theorem takenMove_of_execWord {w : CommandWord} {s t : State} (h : settle w s (execWord w s) = .next t) :
    TakenMove w s t := by
  rcases settle_cases w s (execWord w s) with he | ⟨base, len, ha, hd, he⟩ <;> rw [he] at h
  · rcases execWord_cases w s with ⟨e, -, hx⟩ | ⟨i, hd, hx⟩ <;> rw [hx] at h
    · injection h with h
      exact h ▸ .refused _
    · exact .executed i t hd h
  · injection h with h
    subst h
    have hx : execWord w s = exec (.fill base len) s := by
      unfold execWord
      rw [hd]
    rw [hx] at ha
    change execFill base len s = _ at ha
    unfold execFill at ha
    obtain ⟨-, g, hg, hr, hw⟩ := withBuffer_fault (by intro g hf; cases hf) ha
    exact .stuck base len g hd hg hr hw

/-- A command word started, its answer settled, makes one of these moves. -/
theorem takenMove_of_startWord {p : Nat} {w : CommandWord} {s t : State}
    (h : settle w s (startWord p w s) = .next t) : TakenMove w s t := by
  rcases startWord_cases p w s with hx | ⟨base, len, hd, hx⟩ <;> rw [hx] at h
  · exact takenMove_of_execWord h
  · rcases settle_cases w s (startFill p base len s) with he | ⟨base', len', ha, hd', he⟩ <;> rw [he] at h
    · unfold startFill at h
      rcases withBuffer_cases base len s _ with ⟨-, hb⟩ | ⟨g, hg, ⟨-, hb⟩ | ⟨-, -, hb⟩ | ⟨hr, hw, hb⟩⟩ <;> rw [hb] at h
      · injection h with h
        exact h ▸ .refused _
      · injection h with h
        exact h ▸ .refused _
      · cases h
      · exact .began p base len g t hd hg hr hw h
    · injection h with h
      subst h
      rw [hd] at hd'
      injection hd' with hd'
      injection hd' with h1 h2
      subst h1 h2
      obtain ⟨-, g, hg, hr, hw⟩ := withBuffer_fault (fun g hf => by
        obtain ⟨t, ht⟩ := runJob_next p
          { base := base, len := len, gen := g, i := 0, w := Config.freeShift s.fresh } s
        rw [ht] at hf
        cases hf) ha
      exact .stuck base len g hd hg hr hw

/-- Instance `k` may run in the step from `s`: nothing lands, or leave for `k` to run on. -/
def mayRun (s : State) (k : Nat) : Prop := s.inputs = [] ∨ ∃ p es, s.inputs = .advance k p :: es

/-- The ways a step answers a next state. -/
inductive StepMove (s : State) : State → Prop where
  | presented (k : Nat) (w : CommandWord) (es : List Event) (hi : s.inputs = .present k w :: es) :
      StepMove s { s with inputs := es, commands := s.commands ++ [(k, w)] }
  | reset (k : Nat) (accepted : Bool) (es : List Event) (hi : s.inputs = .reset k accepted :: es) :
      StepMove s (applyReset k accepted { s with inputs := es })
  | wrote (a : Addr) (b : Byte) (es : List Event) (hi : s.inputs = .externWrite a b :: es)
      (hw : s.cfg.isWritable a = true) : StepMove s (({ s with inputs := es } : State).writeByte a b)
  | idle : StepMove s { s with inputs := s.inputs.tail }
  | stayedStuck (k p : Nat) (es : List Event) (f : StuckFill) (hi : s.inputs = .advance k p :: es)
      (hf : s.stuckOf k = some f) : StepMove s ((({ s with inputs := es } : State).accept k s.commands).stick f)
  | ranJob (k p : Nat) (j : FillJob) (t : State) (hr : mayRun s k) (hj : (k, j) ∈ s.jobs)
      (ht : runJob p j { s with inputs := s.inputs.tail, cur := k } = .next t) : StepMove s t
  | ranCommand (k : Nat) (w : CommandWord) (before after : List (Nat × CommandWord)) (t : State) (hr : mayRun s k)
      (hf : s.stuckOf k = none) (hj : s.jobOf k = none) (hc : s.commands = before ++ (k, w) :: after)
      (hb : ∀ c ∈ before, c.1 ≠ k)
      (ht : TakenMove w (({ s with inputs := s.inputs.tail } : State).accept k (before ++ after)) t) : StepMove s t

/-- A step that answers a next state made one of the moves. -/
theorem step_cases {s t : State} (h : step s = .next t) : StepMove s t := by
  unfold step stepOnce at h
  split at h
  · rename_i e es hi
    have htail : s.inputs.tail = es := by rw [hi]; rfl
    cases e with
    | present k w => injection h with h; subst h; exact .presented k w es hi
    | reset k accepted => injection h with h; subst h; exact .reset k accepted es hi
    | externWrite a b =>
      simp only [land] at h
      split at h
      · injection h with h
        subst h
        exact .wrote a b es hi ‹_›
      · cases h
    | advance k p =>
      have hr : mayRun s k := .inr ⟨p, es, hi⟩
      simp only [land, advance] at h
      split at h
      · rename_i f hf
        injection h with h
        subst h
        exact .stayedStuck k p es f hi hf
      · rename_i hf
        split at h
        · rename_i j hj
          exact .ranJob k p j t hr (mem_of_lookupKey hj) (by rw [htail]; exact h)
        · rename_i hj
          split at h
          · rename_i c rest hc
            obtain ⟨hk, before, after, h1, rfl, h3⟩ := takeCommand_some hc
            obtain ⟨k', w⟩ := c
            obtain rfl : k' = k := by simpa using hk
            refine .ranCommand k' w before after t hr hf hj h1 (fun c hc => by simpa using h3 c hc) ?_
            rw [htail]
            exact takenMove_of_startWord h
          · injection h with h
            subst h
            have := StepMove.idle (s := s)
            rwa [htail] at this
  · rename_i hi
    have htail : s.inputs.tail = s.inputs := by rw [hi]; rfl
    unfold serve at h
    split at h
    · rename_i k j js hj
      exact .ranJob k (j.len.toNat + 1) j t (.inl hi) (by rw [hj]; simp) (by rw [htail]; exact h)
    · rename_i hjs
      split at h
      · rename_i c rest hc
        obtain ⟨hk, before, after, h1, rfl, h3⟩ := takeCommand_some hc
        obtain ⟨k, w⟩ := c
        have hk : s.stuckOf k = none := by simpa using hk
        refine .ranCommand k w before after t (.inl hi) hk (by simp [State.jobOf, hjs]) h1 (fun c hc he => ?_) ?_
        · have := h3 c hc
          rw [he, hk] at this
          cases this
        · rw [htail]
          exact takenMove_of_execWord h
      · injection h with h
        subst h
        have := StepMove.idle (s := s)
        rwa [htail] at this

end Sys2Proof.Machine
end

