-- ==== Sys2Proof/Laws/Fill.lean ====
section
/-! SUPPORT. The draws of a FILL and the runs of its iterator: their lengths, and what a run keeps. -/

namespace Sys2Proof.Machine

/-- The state after `n` draws is `T` applied `n` times. -/
theorem draws_state (m64 : Word) (n : Nat) (s : Wide) : (draws m64 n s).1 = nextState^[n] s := by
  induction n generalizing s with
  | zero => rfl
  | succ n ih =>
    simp only [draws, nextPair]
    rw [ih]
    rfl

theorem draws_length (m64 : Word) (n : Nat) (s : Wide) : (draws m64 n s).2.length = n := by
  induction n generalizing s with
  | zero => rfl
  | succ n ih => simp [draws, ih]

theorem length_flatMap_leBytes64 (xs : List Word) : (xs.flatMap leBytes64).length = 8 * xs.length := by
  induction xs with
  | nil => rfl
  | cons x xs ih =>
    simp [ih, length_leBytes64]
    omega

/-- Eight more bytes are one more draw in front. -/
theorem fillBytes_eight_more (m64 : Word) (s : Wide) (L : Nat) :
    fillBytes m64 s (L + 8) = ((fillBytes m64 (nextState s) L).1,
      leBytes64 (nextOut m64 s) ++ (fillBytes m64 (nextState s) L).2) := by
  have hc : drawCount (L + 8) = drawCount L + 1 := by
    unfold drawCount
    omega
  simp only [fillBytes, hc, draws, nextPair, List.flatMap_cons]
  rw [show L + 8 = (leBytes64 (nextOut m64 s)).length + L by rw [length_leBytes64]; omega, List.take_length_add_append]

/-- A run of `p + q` byte writes is a run of `p` and then one of `q`. -/
theorem fillRun_add (m64 : Word) (base : Addr) (len p q : Nat) (r : FillRun) :
    fillRun m64 base len (p + q) r = fillRun m64 base len q (fillRun m64 base len p r) := by
  induction p generalizing r with
  | zero => simp [fillRun]
  | succ p ih =>
    rw [show p + 1 + q = (p + q) + 1 by omega]
    simp only [fillRun, ih]

/-- The offset counts the byte writes. -/
theorem fillRun_offset (m64 : Word) (base : Addr) (len n : Nat) (r : FillRun) :
    (fillRun m64 base len n r).i = r.i + n := by
  induction n generalizing r with
  | zero => rfl
  | succ n ih =>
    simp only [fillRun, ih, fillByte]
    omega

/-- A run keeps the canonical form of memory. -/
theorem memWf_fillRun (m64 : Word) (base : Addr) (len n : Nat) (r : FillRun) (h : Memory.wf r.mem) :
    Memory.wf (fillRun m64 base len n r).mem := by
  induction n generalizing r with
  | zero => exact h
  | succ n ih => exact ih _ (memWf_memWrite h _ _)

/-- A run writes only the buffer positions it passes over. -/
theorem fillRun_outside (m64 : Word) (base : Addr) (len n : Nat) (r : FillRun) (a : Addr)
    (h : ∀ k, r.i ≤ k → k < r.i + n → a ≠ bufferAddr base k) :
    lookupKey a.toNat (fillRun m64 base len n r).mem = lookupKey a.toNat r.mem := by
  induction n generalizing r with
  | zero => rfl
  | succ n ih =>
    simp only [fillRun]
    rw [ih]
    · simp only [fillByte]
      rw [lookupKey_memWrite, if_neg (h r.i (le_refl _) (by omega))]
    · intro k h1 h2
      simp only [fillByte] at h1 h2
      exact h k (by omega) (by omega)

end Sys2Proof.Machine
end

