-- ==== Sys2Proof/Machine/Asm.lean ====
section
/-! DEFINITION. Reading the textual syntax (30_encoding.md R61, R62): one command per line, `;` starts a comment,
numbers are hexadecimal with `0x` or decimal, and `@k:` names the instance, `@0` by default. -/

namespace Sys2Proof.Machine

/-- What a line of text is. -/
inductive Parsed where
  /-- Nothing but blanks or a comment. -/
  | blank
  /-- A line for the instance at `port`. -/
  | line (port : Nat) (l : Line)
  /-- Not of the syntax of R61, R62. -/
  | bad
deriving DecidableEq, Repr

/-- The value of one digit in a base up to sixteen. -/
def digitValue (base : Nat) (c : Char) : Option Nat :=
  let n := c.toNat
  let d := if 48 ≤ n ∧ n ≤ 57 then n - 48
    else if 65 ≤ n ∧ n ≤ 70 then n - 55
    else if 97 ≤ n ∧ n ≤ 102 then n - 87
    else base
  if d < base then some d else none

/-- Digits read most significant first, after `acc`. -/
def digitsFrom (base : Nat) : Nat → List Char → Option Nat
  | acc, [] => some acc
  | acc, c :: cs =>
    match digitValue base c with
    | some d => digitsFrom base (acc * base + d) cs
    | none => none

/-- A number without a prefix in the given base; at least one digit. -/
def readDigits (base : Nat) (cs : List Char) : Option Nat :=
  if cs.isEmpty then none else digitsFrom base 0 cs

/-- A number: hexadecimal with `0x`, else in base `plain` (30_encoding.md R61). -/
def readNumberIn (plain : Nat) : List Char → Option Nat
  | '0' :: 'x' :: cs => readDigits 16 cs
  | cs => readDigits plain cs

/-- A number of R61: decimal unless it has `0x`. -/
def readNumber : List Char → Option Nat := readNumberIn 10

/-- A seed byte of SEEDB: hexadecimal digits also without `0x`, as R72's example writes them (DEDUCED, log 16). -/
def readSeedByte : List Char → Option Nat := readNumberIn 16

/-- `@k`. -/
def readPort : List Char → Option Nat
  | '@' :: cs => readNumber cs
  | _ => none

/-- `@k:`, a word of its own (DESIGN CHOICE, log 19). -/
def readPrefix (cs : List Char) : Option Nat :=
  match cs.reverse with
  | ':' :: rs => readPort rs.reverse
  | _ => none

/-- The words of a line: separated by blanks and commas, up to the comment (DESIGN CHOICE, log 19). `acc` is the word
being read, last character first. -/
def wordsOf : (acc : List Char) → List Char → List (List Char)
  | acc, [] => if acc.isEmpty then [] else [acc.reverse]
  | acc, c :: cs =>
    if c = ';' then (if acc.isEmpty then [] else [acc.reverse])
    else if c = ' ' ∨ c = ',' ∨ c = '\t' then
      (if acc.isEmpty then wordsOf [] cs else acc.reverse :: wordsOf [] cs)
    else wordsOf (c :: acc) cs

/-- A command or pseudo-command from its words (30_encoding.md R61, R62). The `<-` of CLONE and SPLITTO is a word of
its own (DESIGN CHOICE, log 19). -/
def readLine (m : String) (ops : List (List Char)) : Option Line :=
  match m, ops with
  | "LOAD", [v] => (readNumber v).map .load
  | "SEED", [v] => (readNumber v).map .seed
  | "SEEDU64", [n] => (readNumber n).map .seedu64
  | "NEXT", [] => some .next
  | "SPLIT", [] => some .split
  | "FILL", [b, n] =>
    match readNumber b, readNumber n with
    | some base, some len => some (.fill base len)
    | _, _ => none
  | "GET", [] => some .get
  | "SEEDB", bs => (bs.mapM readSeedByte).map .seedb
  | "NEXTN", [k] => (readNumber k).map .nextN
  | "CLONE", [dst, ['<', '-'], src] =>
    match readPort dst, readPort src with
    | some j, some k => some (.clone j k)
    | _, _ => none
  | "SPLITTO", [dst, ['<', '-'], src] =>
    match readPort dst, readPort src with
    | some j, some k => some (.splitTo j k)
    | _, _ => none
  | _, _ => none

/-- The words of a line after its optional `@k:`, read at port `k`. -/
def readAt (port : Nat) : List (List Char) → Parsed
  | [] => .bad
  | m :: ops =>
    match readLine (String.ofList m) ops with
    | some l => if l.wellFormed then .line port l else .bad
    | none => .bad

/-- A line of text (30_encoding.md R61). A line whose numbers do not fit their fields is no command (log 16). DESIGN
CHOICE (log 19): the rules do not say where blanks may or must stand; here a blank or comma must follow the prefix
`@k:`, so that `@1:NEXT` is no line of the syntax. DESIGN CHOICE (log 20): a prefix may stand before CLONE and SPLITTO
too; it is read as the port of the line, which has no part in what they do. -/
def readText (cs : List Char) : Parsed :=
  match wordsOf [] cs with
  | [] => .blank
  | w :: ws =>
    match readPrefix w with
    | some k => readAt k ws
    | none => readAt 0 (w :: ws)

end Sys2Proof.Machine
end

