-- ==== Sys2Proof/Tests/Slice0.lean ====
section
/-! SUPPORT. Tests: the well-formedness smoke tests, words written out from the spec's encodings, the numbers of
95_test_vectors.md, and for every statement with premises a state and operands that meet them. -/

namespace Sys2Proof.Tests

open Sys2Proof.Machine Sys2Proof.Slice0

/-! ### Helpers -/

/-- A field of the state a command or a step answers. -/
def after {α : Type} (a : Answer) (f : State → α) : Option α :=
  match a with
  | .next t => some (f t)
  | _ => none

/-- The last response of an answer, as STATUS and DATA. -/
def lastSeen (a : Answer) : Option (Status × Wide) :=
  match after a fun t => t.responses.getLast? with
  | some (some r) => some (r.status, r.data)
  | _ => none

/-- The bytes at `base` and above that an answer leaves. -/
def bytesAt (a : Answer) (base : Addr) (n : Nat) : Option (List (Option Byte)) :=
  after a fun t => (List.range n).map fun j => t.readByte (base + BitVec.ofNat 64 j)

/-- Instance 0 holds `g`. -/
def holding (g : Wide) : State := { State.reset with gens := [(0, g)] }

/-- Instance 0 as `SEEDU64 13` leaves it (95_test_vectors.md L1-a). -/
def seeded : State := holding 0x2FAF8E75E5EA70F71E7594727B6BE2FE#128

/-- `seeded` with `Writable` as program P4 gives it. -/
def narrow : State :=
  { seeded with cfg := { Config.default with writable := [⟨0x1000#64, 0x1010#64⟩, ⟨0x2003#64, 0x2009#64⟩] } }

/-- One byte into a FILL of three bytes at 0x1000: one draw made, by V-NEXT-5. -/
def oneByteIn : FillJob :=
  { base := 0x1000#64
    len := 3#64
    gen := 0x1E7597BCC9E5AD93D393655D011CA732#128
    i := 1
    w := 0x0022CE23C1E99EB5#64 }

/-- `seeded` with that FILL in progress. -/
def filling : State := { seeded with jobs := [(0, oneByteIn)] }

/-- Instance 0 as in `narrow`; instance 1 stuck on a FILL of which the second byte is not writable. -/
def oneStuck : State :=
  { narrow with
    gens := [(0, 0x2FAF8E75E5EA70F71E7594727B6BE2FE#128), (1, 5#128)]
    stuck := [(1, { base := 0x1010#64, len := 2#64 })] }

/-- Another system: the state of `seeded` in instance 1, whose port is served. -/
def elsewhere : State :=
  { filling with
    gens := [(0, 5#128), (1, 0x2FAF8E75E5EA70F71E7594727B6BE2FE#128)]
    cur := 1 }

/-- A state in which one event lands next. -/
def receiving (e : Event) (s : State) : State := { s with inputs := [e] }

/-! ### Ill-formed terms are refused -/

theorem test_op_reserved_bits : opReservedClear 0x08#8 = false ∧ opWellFormed 0x83#8 = false := by decide
theorem test_op_reserved_opcode : opAssigned 0x07#8 = false ∧ opWellFormed 0x07#8 = false := by decide
theorem test_op_named : ∀ k < 7, opWellFormed (BitVec.ofNat 8 k) = true := by decide
theorem test_line_load_too_wide : (Line.load (2 ^ 128)).wellFormed = false := by decide
theorem test_line_seed_too_wide : (Line.seed (2 ^ 128)).wellFormed = false := by decide
theorem test_line_seedu64_too_wide : (Line.seedu64 (2 ^ 64)).wellFormed = false := by decide
theorem test_line_fill_base_too_wide : (Line.fill (2 ^ 64) 0).wellFormed = false := by decide
theorem test_line_fill_len_too_wide : (Line.fill 0 (2 ^ 64)).wellFormed = false := by decide
theorem test_line_seedb_too_short : (Line.seedb (List.replicate 15 0)).wellFormed = false := by decide
theorem test_line_seedb_byte_too_wide : (Line.seedb (256 :: List.replicate 15 0)).wellFormed = false := by decide
theorem test_config_even_m64 : ({ Config.default with m64 := 2#64 } : Config).wellFormed = false := by decide
theorem test_config_even_m128 : ({ Config.default with m128 := 2#128 } : Config).wellFormed = false := by decide

/-! ### Decoding: OP in binary from R51 and R54, ARG from R52, numbered as opcode_table.json numbers the bits -/

theorem test_decode_load : decodeTableWord 136 (0b00000000 * 2 ^ 128 + 0x4B28FD2063BB263F22CE23C1E99EB52A)
    = some (.load 0x4B28FD2063BB263F22CE23C1E99EB52A#128) := by decide
theorem test_decode_seed : decodeTableWord 136 (0b00000001 * 2 ^ 128 + 0x0F0E0D0C0B0A09080706050403020100)
    = some (.seed 0x0F0E0D0C0B0A09080706050403020100#128) := by decide
/-- V-U64-5: the high half of ARG is ignored. -/
theorem test_decode_seedu64 : decodeTableWord 136 (0b00000010 * 2 ^ 128 + 0xDEADBEEFDEADBEEF * 2 ^ 64 + 13)
    = some (.seedu64 13#64) := by decide
/-- V-DEC-5. -/
theorem test_decode_next : decodeTableWord 136 (0b00000011 * 2 ^ 128 + (2 ^ 128 - 1)) = some .next := by decide
theorem test_decode_split : decodeTableWord 136 (0b00000100 * 2 ^ 128) = some .split := by decide
theorem test_decode_fill : decodeTableWord 136 (0b00000101 * 2 ^ 128 + 0x2003 * 2 ^ 64 + 7)
    = some (.fill 0x2003#64 7#64) := by decide
/-- V-DEC-6. -/
theorem test_decode_get : decodeTableWord 136 (0b00000110 * 2 ^ 128 + 0x1234) = some .get := by decide
/-- V-DEC-1, V-DEC-2, V-DEC-3, V-DEC-4. -/
theorem test_decode_refused : decode (BitVec.ofNat 136 (0x07 * 2 ^ 128)) = .error .reservedOpcode ∧
    decode (BitVec.ofNat 136 (0x08 * 2 ^ 128)) = .error .illegalOp ∧
    decode (BitVec.ofNat 136 (0x83 * 2 ^ 128)) = .error .illegalOp ∧
    decode (BitVec.ofNat 136 (0xFF * 2 ^ 128)) = .error .illegalOp := by decide
/-- Program P4, row 5, from its serialised form. -/
theorem test_serialised_fill : serialise (encode (.fill 0x2003#64 7#64))
    = [0x05, 0x07, 0, 0, 0, 0, 0, 0, 0, 0x03, 0x20, 0, 0, 0, 0, 0, 0] := by decide
theorem test_serialised_too_short : decodeBytes (List.replicate 16 0#8) = .error .truncated := by decide
/-- Program P5, row 9: the response E_RANGE. -/
theorem test_response_word : (Response.word ⟨0, .eRange, 0#128⟩).toNat = 0x04 * 2 ^ 128 := by decide

/-! ### Primitives (95_test_vectors.md 2.1) -/

/-- V-PRIM-1 to V-PRIM-4. -/
theorem test_ror64 : ror64 1#64 7 = 0x0200000000000000#64 ∧ ror64 0x80#64 7 = 1#64 ∧
    ror64 0x7F#64 7 = 0xFE00000000000000#64 ∧ ror64 0x0123456789ABCDEF#64 7 = 0xDE02468ACF13579B#64 := by decide
/-- V-PRIM-5 to V-PRIM-7. -/
theorem test_shr64 : shr64 0x0123456789ABCDEF#64 19 = 0x0000002468ACF135#64 ∧
    shr64 0xFFFFFFFFFFFFFFFF#64 19 = 0x00001FFFFFFFFFFF#64 ∧ shr64 0x80000#64 19 = 1#64 := by decide
/-- V-PRIM-8, V-PRIM-9. -/
theorem test_bswap128 : bswap128 1#128 = 0x01000000000000000000000000000000#128 ∧
    bswap128 0x0102030405060708090A0B0C0D0E0F10#128 = 0x100F0E0D0C0B0A090807060504030201#128 := by decide
/-- V-PRIM-10, and the products below the table. -/
theorem test_products : wmul64 0xFFFFFFFFFFFFFFFF#64 0xFFFFFFFFFFFFFFFF#64 = 0xFFFFFFFFFFFFFFFE0000000000000001#128 ∧
    wmul64 3#64 Config.default.m64 = 0x0000000000000000D97C7F3321D234F5#128 ∧
    mul128 Config.default.m128 Config.default.m128 = 0x8BEB837F13892FE09C706ADAAB5A7551#128 := by decide
/-- V-PRIM-11, V-PRIM-12. -/
theorem test_add64 : add64 0xF4B9EE5900000000#64 0x487ED510C2C73C95#64 = 0x3D38C369C2C73C95#64 ∧
    add64 0xFFFFFFFFFFFFFFFF#64 1#64 = 0#64 := by decide
/-- V-PRIM-13, V-PRIM-14. -/
theorem test_little_endian : le128 ((List.range 16).map (BitVec.ofNat 8)) = 0x0F0E0D0C0B0A09080706050403020100#128 ∧
    leBytes64 0x22CE23C1E99EB52A#64 = [0x2A, 0xB5, 0x9E, 0xE9, 0xC1, 0x23, 0xCE, 0x22] := by decide
/-- V-PRIM-15. -/
theorem test_unmixLow : unmixLow 0x1E7597BCC9E5AD93#64 = 0x1E7594727B6BE2FE#64 := by decide
/-- V-ZF-1 to V-ZF-6. -/
theorem test_zeroFix : zeroFix 0#128 = 1#128 ∧ zeroFix 1#128 = 1#128 ∧ zeroFix 2#128 = 2#128 ∧
    zeroFix 0x80000000000000000000000000000000#128 = 0x80000000000000000000000000000000#128 ∧
    zeroFix 0x00000000000000010000000000000000#128 = 0x00000000000000010000000000000000#128 := by decide

/-! ### Effects: the numbers of 95_test_vectors.md -/

/-- R71's example. -/
theorem test_load_installs : after (exec (.load 0x0123456789ABCDEFFEDCBA9876543210#128) State.reset)
    (fun t => (t.genOf 0, t.validOf 0)) = some (some 0x0123456789ABCDEFFEDCBA9876543210#128, true) := by decide
/-- Program P5, row 8: a refused LOAD keeps the old state. -/
theorem test_load_zero_keeps : after (exec (.load 0#128) seeded) (fun t => t.gens) = some seeded.gens ∧
    lastSeen (exec (.load 0#128) seeded) = some (.eZero, 0#128) := by decide
/-- V-SEED-1. -/
theorem test_seed_zero : after (exec (.seed 0#128) seeded) (fun t => t.genOf 0) = some (some 1#128) := by decide
/-- V-SEED-3. -/
theorem test_seed_ones : after (exec (.seed 0xFFFFFFFFFFFFFFFFFFFFFFFFFFFFFFFF#128) State.reset) (fun t => t.genOf 0)
    = some (some 0xFFFFFFFFFFFFFFFFFFFFFFFFFFFFFFFF#128) := by decide
/-- V-U64-1. -/
theorem test_seedu64_thirteen : after (exec (.seedu64 13#64) State.reset) (fun t => t.genOf 0)
    = some (some 0x2FAF8E75E5EA70F71E7594727B6BE2FE#128) := by decide
/-- V-U64-2, V-U64-4. -/
theorem test_seedu64_ends : fromU64 Config.default.m128 0#64 = 0xB07A383A00AE83DAD0A5E86C2775400C#128 ∧
    fromU64 Config.default.m128 0xFFFFFFFFFFFFFFFF#64 = 0x73AEF1CFFA34B640BE10F6B57A84B4BB#128 := by decide
/-- V-NEXT-5. -/
theorem test_next_draws : after (exec .next seeded) (fun t => t.genOf 0)
      = some (some 0x1E7597BCC9E5AD93D393655D011CA732#128) ∧
    lastSeen (exec .next seeded) = some (.ok, 0x22CE23C1E99EB52A#128) := by decide
/-- V-NEXT-7: the add wraps. -/
theorem test_next_wraps : nextPair Config.default.m64 0xFFFFFFFF000000000000000000080000#128
    = (0x0000000000080001FFFFFFFF00001000#128, 0x3D38C369C2CF3C95#64) := by decide
/-- V-SPLIT-1. -/
theorem test_split_child : after (exec .split seeded) (fun t => t.genOf 0)
      = some (some 0xD3937F2F6DB707117BD2B17673E794DD#128) ∧
    lastSeen (exec .split seeded) = some (.ok, 0x4B28FD2063BB263F22CE23C1E99EB52A#128) := by decide
/-- Program P6, row 2. -/
theorem test_split_seed_bytes : splitOf Config.default.m64 0x0F0E0D0C0B0A09080706050403020100#128
    = (0x0F0000E6032CCD6B131805E6CFA4997A#128, 0x41F42609A118A052A528685A2DD34B1F#128) := by decide
/-- Program P4, row 2: seventeen bytes, three draws, and nothing past the end. -/
theorem test_fill_seventeen : bytesAt (exec (.fill 0x1000#64 17#64) narrow) 0x1000#64 18
      = some ([some 0x2A, some 0xB5, some 0x9E, some 0xE9, some 0xC1, some 0x23, some 0xCE, some 0x22, some 0x3F,
        some 0x26, some 0xBB, some 0x63, some 0x20, some 0xFD, some 0x28, some 0x4B, some 0x26] ++ [none]) ∧
    after (exec (.fill 0x1000#64 17#64) narrow) (fun t => t.genOf 0)
      = some (some 0x7BD2BE0C25C95AA16964DA4D8150C838#128) := by decide
/-- V-FILL-12, V-FILL-13, V-FILL-15. -/
theorem test_fill_top_of_memory :
    lastSeen (exec (.fill 0xFFFFFFFFFFFFFFFF#64 1#64) seeded) = some (.ok, 0#128) ∧
    lastSeen (exec (.fill 0xFFFFFFFFFFFFFFFF#64 2#64) seeded) = some (.eRange, 0#128) ∧
    lastSeen (exec (.fill 0xFFFFFFFFFFFFFFFC#64 8#64) State.reset) = some (.eNoState, 0#128) := by decide
/-- R76's example: after `SEED 0`. -/
theorem test_get_reads : lastSeen (exec .get (holding 1#128)) = some (.ok, 1#128) := by decide
/-- Program P5, row 2. -/
theorem test_get_no_state : lastSeen (exec .get State.reset) = some (.eNoState, 0#128) := by decide

/-! ### The port, the iterator, reset -/

/-- The word after reset is executed by the very next step: program P1, row 1. -/
theorem test_first_word : after (step (State.reset.withFetchWord 136 0x020000000000000000000000000000000D))
    (fun t => (t.genOf 0, t.commands)) = some (some 0x2FAF8E75E5EA70F71E7594727B6BE2FE#128, []) := by decide
/-- Program P5, row 5. -/
theorem test_first_word_illegal : lastSeen (step (State.reset.withFetchWord 136 (0x07 * 2 ^ 128)))
    = some (.eIllegal, 0#128) := by decide
/-- A command presented is held until its port is served (R162). -/
theorem test_present_holds : after (step (receiving (.present 3 (encode .get)) filling)) (fun t => (t.commands, t.jobs))
    = some ([(3, encode .get)], filling.jobs) := by decide
/-- A FILL paused after nine of seventeen bytes has written nine (R34, R37). -/
theorem test_fill_paused : bytesAt (startFill 9 0x1000#64 17#64 narrow) 0x1008#64 2 = some [some 0x3F, none] ∧
    after (startFill 9 0x1000#64 17#64 narrow) (fun t => (t.responses, t.gens)) = some ([], narrow.gens) := by decide
/-- The shift word is the current draw, as it is in the body and shifted for each tail byte (R20; draws of P3). -/
theorem test_shift_word : after (startFill 3 0x1000#64 9#64 seeded) (fun t => t.jobs.map (·.2.w))
      = some [0x22CE23C1E99EB52A#64] ∧
    after (startFill 9 0x1000#64 9#64 seeded) (fun t => t.jobs.map (·.2.w)) = some [0x004B28FD2063BB26#64] := by decide
/-- A FILL with all its bytes written and its response still to come can be reset (R160): all the bytes stay. -/
theorem test_reset_before_response :
    bytesAt (core.run 2 { filling with inputs := [.advance 0 2, .reset 0 false] }) 0x1000#64 3
      = some [none, some 0xB5, some 0x9E] ∧
    after (core.run 2 { filling with inputs := [.advance 0 2, .reset 0 false] }) (fun t => (t.responses, t.jobs))
      = some ([], []) := by decide
/-- A stuck instance holds its commands while another instance is served (R36, R150). -/
theorem test_stuck_others_go_on :
    after (step { oneStuck with commands := [(1, encode .get), (0, encode .next)] })
      (fun t => (t.commands, t.responses)) = some ([(1, encode .get)], [⟨0, .ok, 0x22CE23C1E99EB52A#128⟩]) := by decide
/-- R160: reset during a FILL leaves no state and no iterator, and no response. -/
theorem test_reset_abandons_fill : after (step (receiving (.reset 0 true) filling))
    (fun t => (t.validOf 0, t.jobs, t.responses)) = some (false, [], []) := by decide
/-- R38, R45: an outside write lands in writable memory, and stops the model elsewhere (log 12). -/
theorem test_outside_write : bytesAt (step (receiving (.externWrite 0x1010#64 5#8) narrow)) 0x1010#64 1
      = some [some 5#8] ∧
    step (receiving (.externWrite 0x1011#64 5#8) narrow) = .fault .externNotWritable := ⟨by decide, rfl⟩
/-- R36. -/
theorem test_fill_not_writable : exec (.fill 0x1010#64 2#64) narrow = .fault .bufferNotWritable := rfl

/-! ### Text (30_encoding.md R61, R62) -/

theorem test_text_fill : readText "@1: FILL 0x2003, 7 ; a tail".toList = .line 1 (.fill 0x2003 7) := by decide
theorem test_text_default_port : readText "SEEDU64 13".toList = .line 0 (.seedu64 13) := by decide
/-- R72's example. -/
theorem test_text_seedb : readText "SEEDB 00 01 02 03 04 05 06 07 08 09 0A 0B 0C 0D 0E 0F".toList
    = .line 0 (.seedb [0, 1, 2, 3, 4, 5, 6, 7, 8, 9, 10, 11, 12, 13, 14, 15]) := by decide
theorem test_text_splitto : readText "SPLITTO @1 <- @0".toList = .line 0 (.splitTo 1 0) := by decide
/-- A prefix before CLONE has no part in it (log 20). -/
theorem test_text_clone_prefix : readText "@2: CLONE @1 <- @0".toList = .line 2 (.clone 1 0) ∧
    execLine 2 (.clone 1 0) seeded = execLine 0 (.clone 1 0) seeded := ⟨by decide, rfl⟩
theorem test_text_refused : readText "LOAD".toList = .bad ∧ readText "SEEDU64 0x10000000000000000".toList = .bad ∧
    readText " ; nothing".toList = .blank := by decide
/-- Program P3, rows 2 and 3. -/
theorem test_splitto : after (execSplitTo 1 0 seeded) (fun t => (t.genOf 0, t.genOf 1))
    = some (some 0xD3937F2F6DB707117BD2B17673E794DD#128, some 0x4B28FD2063BB263F22CE23C1E99EB52A#128) := by decide

/-! ### Premises are met: one state and operands for every clause with hypotheses -/

theorem witness_EncodeOfDecode : decode (0x00#8 ++ (1#128)) = .ok (.load 1#128) ∧
    decode (0x02#8 ++ (0xDEADBEEFDEADBEEF000000000000000D#128)) = .ok (.seedu64 13#64) ∧
    decode (0x03#8 ++ (0xFFFFFFFFFFFFFFFFFFFFFFFFFFFFFFFF#128)) = .ok .next := by decide
theorem witness_IllegalWordsRefused : 8 ≤ (8#8).toNat ∧ 8 ≤ (0xFF#8).toNat ∧ (6#8).toNat ≤ 6 ∧ 7 ≤ (7#8).toNat := by
  decide
theorem witness_SerialisedForm : ([] : List Byte).length < 17 ∧ (List.replicate 16 (0#8)).length < 17 ∧
    (List.replicate 16 (0#8)).length = 16 := by decide
/-- A command behind one that a stuck port holds, with nothing landing; and the oldest of its port, with leave to
run. -/
theorem witness_StepRunsDecodedCommand :
    ({ oneStuck with commands := [(1, encode .get), (0, encode .next)] } : State).commands
      = [(1, encode .get)] ++ (0, encode .next) :: [] ∧
    oneStuck.stuckOf 0 = none ∧ decode (encode .next) = .ok .next ∧ oneStuck.inputs = [] ∧ oneStuck.jobs = [] ∧
    (∀ c ∈ [(1, encode .get)], oneStuck.stuckOf c.1 ≠ none) ∧
    (receiving (.advance 0 0) oneStuck).inputs = .advance 0 0 :: [] ∧ oneStuck.jobOf 0 = none ∧
    ∀ c ∈ [(1, encode .get)], c.1 ≠ 0 := by decide
/-- Both answers that `settledAs` tells apart. -/
theorem witness_settledAs : exec .get narrow ≠ .fault .bufferNotWritable ∧
    exec (.fill 0x1010#64 2#64) narrow = .fault .bufferNotWritable :=
  ⟨fun h => (nomatch h), rfl⟩
theorem witness_PlacedWordRunsNext : decodeTableWord 136 (0x03 * 2 ^ 128) = some .next := by decide

/-- A FILL of one move less than its response takes, and a command that is no FILL at `p = 0`. -/
theorem witness_OnlyFillsCanPause : seeded.jobOf seeded.cur = none ∧
    (∀ base len, decode (encode (.fill 0x1000#64 2#64)) = .ok (.fill base len) → len.toNat < 3) ∧
    (∀ base len, decode (encode .next) = .ok (.fill base len) → len.toNat < 0) := by
  have hf : decode (encode (.fill 0x1000#64 2#64)) = .ok (.fill 0x1000#64 2#64) := by decide
  have hn : decode (encode .next) = .ok .next := by decide
  refine ⟨by decide, fun base len h => ?_, fun base len h => ?_⟩
  · rw [hf] at h
    injection h with h
    injection h with _ h
    subst h
    decide
  · rw [hn] at h
    injection h with h
    cases h

theorem witness_ZeroFixIsTheZeroSubstitution : (2#128 : Wide) ≠ 0#128 ∧
    zeroFix 0#128 = zeroFix 1#128 ∧ (0#128 : Wide) ≠ 1#128 := by decide
theorem witness_LoadInstallsOrRefusesZero : (1#128 : Wide) ≠ 0#128 ∧
    (0xFFFFFFFFFFFFFFFFFFFFFFFFFFFFFFFF#128 : Wide) ≠ 0#128 := by decide
theorem witness_SeedInstallsZeroFixed : (List.replicate 16 (0#8)).length = 16 ∧ (1#128 : Wide) ≠ 0#128 ∧
    ∃ t t', exec (.seed 0#128) State.reset = .next t ∧ exec (.seed 1#128) State.reset = .next t' ∧
      t.genOf State.reset.cur = t'.genOf State.reset.cur := ⟨by decide, by decide, _, _, rfl, rfl, by decide⟩
theorem witness_SeedU64InstallsExpansion : Config.default.wellFormed = true ∧
    fromU64 Config.default.m128 0#64 = fromU64 Config.default.m128 0#64 := by decide
theorem witness_ExpansionLaws : Config.default.m128.toNat % 2 = 1 ∧ (1#128).toNat % 2 = 1 ∧
    fromU64 1#128 3#64 = fromU64 1#128 3#64 ∧ mul128 5#128 1#128 = mul128 5#128 1#128 ∧
    bswap128 5#128 = bswap128 5#128 := by decide
theorem witness_GetReadsTheState : (holding 1#128).genOf (holding 1#128).cur = some 1#128 ∧
    NonZeroInv (holding 1#128) ∧ State.reset.genOf State.reset.cur = none := by decide
theorem witness_NextDrawsOnce : seeded.genOf seeded.cur = some 0x2FAF8E75E5EA70F71E7594727B6BE2FE#128 ∧
    State.reset.genOf State.reset.cur = none ∧ Config.default.m64 ≠ 0#64 := by decide
theorem witness_NextStateLaws : nextState 0#128 = 0#128 ∧ (1#128 : Wide) ≠ 0#128 := by decide
theorem witness_SplitFunction : (1#128 : Wide) ≠ 0#128 ∧ nextOut 1#64 1#128 = 1#64 := by decide
theorem witness_SplitHandsOutAChild : (holding 1#128).genOf (holding 1#128).cur = some 1#128 ∧
    State.reset.genOf State.reset.cur = none := by decide
theorem witness_FillBytesFunction : 0 < 1 ∧ 7 < 9 ∧ 8 < 9 := by decide

/-- A buffer in the middle, one that ends at the top of the address space, and an empty one at its last address. -/
theorem witness_FillWritesTheBuffer : fillReady seeded 0x2FAF8E75E5EA70F71E7594727B6BE2FE#128 0x1000#64 17#64 ∧
    fillReady seeded 0x2FAF8E75E5EA70F71E7594727B6BE2FE#128 0xFFFFFFFFFFFFFFFC#64 4#64 ∧
    fillReady seeded 0x2FAF8E75E5EA70F71E7594727B6BE2FE#128 0xFFFFFFFFFFFFFFFF#64 0#64 := by
  unfold fillReady
  decide
/-- The addresses beside the buffer of `FILL 0x1000, 17`. -/
theorem witness_FillWritesTheBuffer_outside : (0xFFF#64).toNat < (0x1000#64).toNat ∧
    (0x1000#64).toNat + (17#64).toNat ≤ (0x1011#64).toNat ∧ 0 < (17#64).toNat ∧ 16 < (17#64).toNat := by decide
theorem witness_CheckOrder : 7 ≤ (7#8).toNat ∧ State.reset.genOf State.reset.cur = none ∧
    seeded.genOf seeded.cur = some 0x2FAF8E75E5EA70F71E7594727B6BE2FE#128 ∧
    2 ^ 64 < (0xFFFFFFFFFFFFFFFF#64).toNat + (2#64).toNat := by decide
theorem witness_CheckOrder_answers : (∃ t, exec (.load 1#128) State.reset = .next t) ∧
    (∃ t, exec (.seed 0#128) State.reset = .next t) ∧ (∃ t, exec (.seedu64 0#64) State.reset = .next t) ∧
    ∃ t, exec .get State.reset = .next t := ⟨⟨_, rfl⟩, ⟨_, rfl⟩, ⟨_, rfl⟩, ⟨_, rfl⟩⟩
theorem witness_UnwritableFillIsStuck : narrow.genOf narrow.cur = some 0x2FAF8E75E5EA70F71E7594727B6BE2FE#128 ∧
    (0x1010#64).toNat + (2#64).toNat ≤ 2 ^ 64 ∧ 1 < (2#64).toNat ∧
    narrow.cfg.isWritable (0x1010#64 + BitVec.ofNat 64 1) = false := by decide
theorem witness_PausesDoNotChangeAFill : seeded.jobOf seeded.cur = none ∧
    filling.genOf filling.cur = some 0x2FAF8E75E5EA70F71E7594727B6BE2FE#128 ∧
    oneByteIn.i + 1 ≤ oneByteIn.len.toNat ∧ oneByteIn.i + 2 ≤ oneByteIn.len.toNat ∧ (3#64).toNat < 4 := by decide
/-- `FILL 0x1000, 17` paused before its first byte, after nine, and after its last before the response. -/
theorem witness_PausedFillWroteAPrefix : fillReady seeded 0x2FAF8E75E5EA70F71E7594727B6BE2FE#128 0x1000#64 17#64 ∧
    0 ≤ (17#64).toNat ∧ 9 ≤ (17#64).toNat ∧ 17 ≤ (17#64).toNat ∧ 0 < 9 ∧ 0 < 1 ∧
    (0x1000#64).toNat + 9 ≤ (0x1009#64).toNat := by
  unfold fillReady
  decide
theorem witness_ConsecutiveWritesAreReadBack : 8 ≤ 8 ∧ 7 < 8 ∧
    ∀ k < 8, (0x1008#64 : Addr) ≠ 0x1000#64 + BitVec.ofNat 64 k := by decide
theorem witness_FillEqualsNexts : fillReady seeded 0x2FAF8E75E5EA70F71E7594727B6BE2FE#128 0x1000#64 9#64 := by
  unfold fillReady
  decide
theorem witness_FillsJoinAtWholeDraws : 0 % 8 = 0 ∧ 16 % 8 = 0 := by decide
theorem witness_ErrorsChangeNothing : (∃ t, exec .get State.reset = .next t) ∧ ∃ t, exec .get seeded = .next t :=
  ⟨⟨_, rfl⟩, ⟨_, rfl⟩⟩

/-- An error response, and an OK response of a command of each shape. -/
theorem witness_ResponseData :
    (∃ t, exec .next State.reset = .next t ∧ t.responses = State.reset.responses ++ [⟨0, .eNoState, 0#128⟩]) ∧
    (∃ t, exec (.seed 0#128) State.reset = .next t ∧ t.responses = State.reset.responses ++ [⟨0, .ok, 0#128⟩]) ∧
    (∃ t, exec .next (holding 1#128) = .next t ∧ t.responses = (holding 1#128).responses ++ [⟨0, .ok, 1#128⟩]) ∧
    (∃ t, exec .split seeded = .next t ∧
      t.responses = seeded.responses ++ [⟨0, .ok, 0x4B28FD2063BB263F22CE23C1E99EB52A#128⟩]) ∧
    (∃ t, exec .get (holding 1#128) = .next t ∧ t.responses = (holding 1#128).responses ++ [⟨0, .ok, 1#128⟩]) :=
  ⟨⟨_, rfl, by decide⟩, ⟨_, rfl, by decide⟩, ⟨_, rfl, by decide⟩, ⟨_, rfl, by decide⟩, ⟨_, rfl, by decide⟩⟩
theorem witness_OneResponsePerCommand : (∃ t, execWord (0x07#8 ++ (0#128)) State.reset = .next t) ∧
    ∃ t, execWord (encode .next) seeded = .next t := ⟨⟨_, rfl⟩, ⟨_, rfl⟩⟩
theorem witness_ResetOfAnInstance :
    (receiving (.reset 0 false) seeded).inputs = .reset 0 false :: [] ∧
    (receiving (.reset 0 true) filling).jobOf 0 ≠ none ∧ (receiving (.reset 1 true) oneStuck).stuckOf 1 ≠ none ∧
    (receiving (.reset 0 true) oneStuck).jobOf 0 = none ∧ (receiving (.reset 0 true) oneStuck).stuckOf 0 = none ∧
    ({ receiving (.reset 0 true) oneStuck with commands := [(1, encode .get), (0, encode .next)] } : State).commands
      = [(1, encode .get)] ++ (0, encode .next) :: [] ∧
    (∀ c ∈ [(1, encode .get)], c.1 ≠ 0) ∧ ∀ c ∈ (receiving (.reset 0 true) oneStuck).commands, c.1 ≠ 0 := by decide
theorem witness_ValidFlagRule :
    (∃ t, StuckInv { State.reset with commands := [(0, encode (.seed 0#128))] } ∧
      step { State.reset with commands := [(0, encode (.seed 0#128))] } = .next t ∧
      ({ State.reset with commands := [(0, encode (.seed 0#128))] } : State).validOf 0 = false ∧
      t.validOf 0 = true) ∧
    ∃ t, StuckInv (receiving (.reset 0 false) seeded) ∧ step (receiving (.reset 0 false) seeded) = .next t ∧
      (receiving (.reset 0 false) seeded).validOf 0 = true ∧ t.validOf 0 = false :=
  ⟨⟨_, by decide, rfl, by decide, by decide⟩, ⟨_, by decide, rfl, by decide, by decide⟩⟩
theorem witness_NonZeroKept : ConfigInv filling ∧ NonZeroInv filling ∧ NonZeroJobs filling ∧
    ∃ t, step filling = .next t := ⟨by decide, by decide, by decide, _, rfl⟩
theorem witness_CanonicalKept : CanonicalInv filling ∧ ∃ t, step filling = .next t := ⟨by decide, _, rfl⟩

/-- The FILL of `filling` is one in progress as the iterator leaves it. -/
theorem oneByteIn_admitted (c : Config) (hm : c.m64 = Config.default.m64)
    (hw : bufferWritable c 0x1000#64 3 = true) : jobAdmitted c 0x2FAF8E75E5EA70F71E7594727B6BE2FE#128 oneByteIn := by
  refine ⟨by decide, by decide, hw, by decide, fun _ => ?_⟩
  rw [hm]
  decide

theorem jobsInv_filling : JobsInv filling := by
  intro c hc
  obtain rfl : c = (0, oneByteIn) := by simpa [filling] using hc
  exact ⟨_, rfl, oneByteIn_admitted _ rfl (by decide)⟩

theorem witness_FillsInProgressKept : JobsInv filling ∧ StuckInv filling ∧ StuckInv oneStuck ∧ WritableInv filling ∧
    ∃ t, step (receiving (.advance 0 1) filling) = .next t := ⟨jobsInv_filling, by decide, by decide, by decide, _, rfl⟩
theorem witness_UnwritableBytesNeverChange : JobsInv { filling with cfg := narrow.cfg } ∧
    ({ filling with cfg := narrow.cfg } : State).cfg.isWritable 0x1011#64 = false ∧
    ∃ t, step { filling with cfg := narrow.cfg } = .next t := by
  refine ⟨fun c hc => ?_, by decide, _, rfl⟩
  obtain rfl : c = (0, oneByteIn) := by simpa [filling] using hc
  exact ⟨_, rfl, oneByteIn_admitted _ rfl (by decide)⟩
theorem witness_ConfigurationNeverWritten : ∃ t, step filling = .next t := ⟨_, rfl⟩
theorem witness_FrameOfEveryCommand : (∃ t, exec (.load 1#128) seeded = .next t) ∧
    (∃ t, exec (.seed 0#128) seeded = .next t) ∧ (∃ t, exec (.seedu64 1#64) seeded = .next t) ∧
    (∃ t, exec .next seeded = .next t) ∧ (∃ t, exec .split seeded = .next t) ∧
    (∃ t, exec (.fill 0x1000#64 2#64) seeded = .next t) ∧ (∃ t, exec .get seeded = .next t) ∧
    ∀ j < (2#64).toNat, (0x1002#64 : Addr) ≠ bufferAddr 0x1000#64 j :=
  ⟨⟨_, rfl⟩, ⟨_, rfl⟩, ⟨_, rfl⟩, ⟨_, rfl⟩, ⟨_, rfl⟩, ⟨_, rfl⟩, ⟨_, rfl⟩, by decide⟩
theorem witness_StepMovesOneInstance : (∃ t, step filling = .next t) ∧
    ∃ t, step (receiving (.reset 1 false) filling) = .next t := ⟨⟨_, rfl⟩, ⟨_, rfl⟩⟩
theorem witness_BusyPortHolds : (receiving (.present 0 (encode .get)) filling).inputs = .present 0 (encode .get) :: [] ∧
    (∃ t, (receiving (.advance 0 1) filling).inputs = .advance 0 1 :: [] ∧
      (receiving (.advance 0 1) filling).jobOf 0 ≠ none ∧
      step (receiving (.advance 0 1) filling) = .next t) ∧
    (∃ t, (receiving (.advance 1 0) oneStuck).stuckOf 1 = some { base := 0x1010#64, len := 2#64 } ∧
      step (receiving (.advance 1 0) oneStuck) = .next t) ∧
    ∃ t, filling.inputs = [] ∧ filling.jobs ≠ [] ∧ step filling = .next t :=
  ⟨rfl, ⟨_, rfl, by decide, rfl⟩, ⟨_, rfl, rfl⟩, ⟨_, rfl, by decide, rfl⟩⟩
theorem witness_OutsideWriteLands : (receiving (.externWrite 0xFFFFFFFFFFFFFFFF#64 5#8) seeded).inputs
      = .externWrite 0xFFFFFFFFFFFFFFFF#64 5#8 :: [] ∧
    (receiving (.externWrite 0xFFFFFFFFFFFFFFFF#64 5#8) seeded).cfg.isWritable 0xFFFFFFFFFFFFFFFF#64 = true := by
  decide

/-- Every address is writable at the default configuration (log 3). -/
theorem isWritable_default (a : Addr) : Config.default.isWritable a = true := by
  have ha := a.isLt
  simp only [Config.isWritable, Config.default, List.any_cons, List.any_nil, Bool.or_false, Bool.and_eq_true,
    decide_eq_true_eq, BitVec.le_def]
  constructor
  · simp
  · change a.toNat ≤ 2 ^ 64 - 1
    omega

/-- A FILL in progress and two held commands. -/
theorem witness_HeldCommandsAreAnsweredInOrder :
    ({ filling with commands := [(1, encode .next), (0, encode .get)] } : State).inputs = [] ∧
    ({ filling with commands := [(1, encode .next), (0, encode .get)] } : State).stuck = [] ∧
    (∀ a, ({ filling with commands := [(1, encode .next), (0, encode .get)] } : State).cfg.isWritable a = true) ∧
    tableWf ({ filling with commands := [(1, encode .next), (0, encode .get)] } : State).jobs ∧
    JobsInv { filling with commands := [(1, encode .next), (0, encode .get)] } :=
  ⟨rfl, rfl, isWritable_default, by decide, jobsInv_filling⟩

/-- Two systems that differ in the port, the fills in progress and the other instances, over one `S`. -/
theorem witness_SameStateSameAnswer : seeded ≠ elsewhere ∧ seeded.cfg = elsewhere.cfg ∧
    seeded.genOf seeded.cur = elsewhere.genOf elsewhere.cur := by decide
theorem witness_CopiesStayEqual : seeded.cfg = elsewhere.cfg ∧ seeded.genOf 0 = elsewhere.genOf 1 := by decide
theorem witness_CloneCopies : NonZeroInv seeded ∧ seeded.genOf 0 = some 0x2FAF8E75E5EA70F71E7594727B6BE2FE#128 := by
  decide
theorem witness_SplitToHandsOver : seeded.genOf 0 = some 0x2FAF8E75E5EA70F71E7594727B6BE2FE#128 ∧ (1 : Nat) ≠ 0 := by
  decide
theorem witness_PseudoCommandLines : (Line.seedb (List.replicate 16 255)).wellFormed = true ∧
    (Line.seedu64 (2 ^ 64)).wellFormed = false := by decide

/-- A FILL whose second byte is not writable, held at port 0. -/
theorem witness_StuckFillStopsItsInstanceOnly :
    ∃ t, step { narrow with commands := [(0, encode (.fill 0x1010#64 2#64))] } = .next t ∧
      ({ narrow with commands := [(0, encode (.fill 0x1010#64 2#64))] } : State).stuckOf 0 = none ∧
      t.stuckOf 0 = some { base := 0x1010#64, len := 2#64 } := ⟨_, rfl, rfl, rfl⟩
/-- The first byte of that buffer is before the first that is not writable, the second is not. -/
theorem witness_StuckFillStopsItsInstanceOnly_bytes : 0 < (2#64).toNat ∧
    (∀ i ≤ 0, narrow.cfg.isWritable (bufferAddr 0x1010#64 i) = true) ∧
    narrow.cfg.isWritable (bufferAddr 0x1010#64 1) = false := by decide
theorem witness_OnlyResetFreesAStuckInstance : StuckInv oneStuck ∧
    oneStuck.stuckOf 1 = some { base := 0x1010#64, len := 2#64 } ∧
    (∃ t, step { oneStuck with commands := [(1, encode .get), (0, encode .next)] } = .next t) ∧
    ∃ t, step (receiving (.advance 1 7) oneStuck) = .next t := ⟨by decide, rfl, ⟨_, rfl⟩, ⟨_, rfl⟩⟩
/-- With nothing landing, and with leave for just its two byte writes to come and its response. -/
theorem witness_StepRunsAFillInProgress : filling.inputs = [] ∧ filling.jobs = (0, oneByteIn) :: [] ∧
    filling.genOf 0 = some 0x2FAF8E75E5EA70F71E7594727B6BE2FE#128 ∧
    jobAdmitted filling.cfg 0x2FAF8E75E5EA70F71E7594727B6BE2FE#128 oneByteIn ∧
    (receiving (.advance 0 3) filling).inputs = .advance 0 3 :: [] ∧ filling.stuckOf 0 = none ∧
    filling.jobOf 0 = some oneByteIn ∧ oneByteIn.len.toNat - oneByteIn.i < 3 :=
  ⟨rfl, rfl, rfl, oneByteIn_admitted _ rfl (by decide), rfl, rfl, rfl, by decide⟩

end Sys2Proof.Tests
end

section
/-! PROOFS. Buffer memory (20_memory.md): a FILL over a buffer that is not wholly writable has no step (R36). -/

namespace Sys2Proof.Machine

/-- The range check of FILL passes just when the buffer lies within the address space (43_fill.md R121). -/
theorem bufferWraps_eq_false_iff (base : Addr) (len : Word) :
    bufferWraps base len = false ↔ base.toNat + len.toNat ≤ 2 ^ 64 := by
  simp only [bufferWraps, decide_eq_false_iff_not, not_lt]

/-- The negative form of `bufferWritable_iff`: one byte that is not writable is what stops a FILL. -/
theorem bufferWritable_eq_false_iff (c : Config) (base : Addr) (n : Nat) :
    bufferWritable c base n = false ↔ ∃ j < n, c.isWritable (bufferAddr base j) = false := by
  rw [← Bool.not_eq_true, bufferWritable_iff]
  simp only [not_forall, Bool.not_eq_true, exists_prop]

/-- With the state and range checks passed and the buffer not wholly writable, the command behind the checks does
not run (20_memory.md R36). -/
theorem withBuffer_of_not_writable {base : Addr} {len : Word} {s : State} {g : Wide} (rest : Wide → Answer)
    (hg : s.genOf s.cur = some g) (hwrap : bufferWraps base len = false)
    (hbuf : bufferWritable s.cfg base len.toNat = false) :
    withBuffer base len s rest = .fault .bufferNotWritable := by
  rw [withBuffer, withGen_some hg]
  simp only [hwrap, hbuf, Bool.false_eq_true, if_false]

/-- Settles O25: of FILL's checks the first two pass, and the byte at `j` fails the third. -/
theorem unwritableFillIsStuck : Obligations.UnwritableFillIsStuck := by
  intro s g base len j hg hrange hj hbyte
  have hwrap : bufferWraps base len = false := (bufferWraps_eq_false_iff base len).mpr hrange
  have hbuf : bufferWritable s.cfg base len.toNat = false :=
    (bufferWritable_eq_false_iff s.cfg base len.toNat).mpr ⟨j, hj, hbyte⟩
  exact withBuffer_of_not_writable _ hg hwrap hbuf

end Sys2Proof.Machine
end

section
/-! PROOFS. Command words by their OP byte (30_encoding.md R54 to R56): which decode, to what, and what a port answers
to those that do not. -/

namespace Sys2Proof.Machine

/-- `OP[7:3] = 0` says that `OP` is below 8. -/
theorem opReservedClear_eq_decide (op : Byte) : opReservedClear op = decide (op.toNat < 8) := by
  have hshift : (op >>> 3).toNat = op.toNat / 8 := by simp [Nat.shiftRight_eq_div_pow]
  rw [opReservedClear, Bool.beq_eq_decide_eq, decide_eq_decide, ← BitVec.toNat_inj, hshift]
  simp

theorem decode_seedu64 (arg : Wide) : decode (0x02#8 ++ arg) = .ok (.seedu64 (argN arg)) := decode_of_fields _ _
theorem decode_next (arg : Wide) : decode (0x03#8 ++ arg) = .ok .next := decode_of_fields _ _
theorem decode_split (arg : Wide) : decode (0x04#8 ++ arg) = .ok .split := decode_of_fields _ _
theorem decode_get (arg : Wide) : decode (0x06#8 ++ arg) = .ok .get := decode_of_fields _ _
theorem decode_reserved (arg : Wide) : decode (0x07#8 ++ arg) = .error .reservedOpcode := decode_of_fields _ _

theorem decode_illegal {op : Byte} (h : 8 ≤ op.toNat) (arg : Wide) : decode (op ++ arg) = .error .illegalOp := by
  have hop : opReservedClear op = false := by simpa [opReservedClear_eq_decide] using h
  rw [decode_of_fields, hop]
  rfl

/-- Every `OP` up to 6 names a command: it is one of the seven of R54. -/
theorem decode_assigned {op : Byte} (h : op.toNat ≤ 6) (arg : Wide) : ∃ i, decode (op ++ arg) = .ok i := by
  have hop : op = BitVec.ofNat 8 op.toNat := by simp
  rw [hop]
  interval_cases op.toNat <;> exact ⟨_, decode_of_fields _ _⟩

theorem decode_error_of_seven_le {op : Byte} (h : 7 ≤ op.toNat) (arg : Wide) :
    ∃ e, decode (op ++ arg) = .error e := by
  rcases h.eq_or_lt with h7 | h8
  · obtain rfl : op = 7#8 := BitVec.eq_of_toNat_eq h7.symm
    exact ⟨_, decode_reserved arg⟩
  · exact ⟨_, decode_illegal h8 arg⟩

theorem execWord_of_error {w : CommandWord} {e : DecodeError} (h : decode w = .error e) (s : State) :
    execWord w s = raise .eIllegal s := by simp only [execWord, h]

theorem startWord_of_error {w : CommandWord} {e : DecodeError} (h : decode w = .error e) (p : Nat) (s : State) :
    startWord p w s = raise .eIllegal s := by simp only [startWord, h]

/-- A port does the same on two words that decode alike. -/
theorem execWord_congr {w w' : CommandWord} (h : decode w = decode w') (s : State) :
    execWord w s = execWord w' s := by simp only [execWord, h]

/-- Settles O3: by the value of `OP`, whatever `ARG` is; a word that does not decode is answered by `raise`. -/
theorem illegalWordsRefused : Obligations.IllegalWordsRefused := by
  intro op arg
  refine ⟨?_, fun h => decode_illegal h arg, fun h => decode_assigned h arg, fun p s h => ?_⟩
  · rintro rfl
    exact decode_reserved arg
  · obtain ⟨e, he⟩ := decode_error_of_seven_le h arg
    exact ⟨execWord_of_error he s, startWord_of_error he p s⟩

/-- `N` is the low half of `ARG`, whatever the high half is. -/
theorem argN_append (hi n : Word) : argN (hi ++ n : BitVec 128) = n := (halves_of_append hi n).2

theorem decode_seedu64_append (hi n : Word) : decode (0x02#8 ++ (hi ++ n : BitVec 128)) = .ok (.seedu64 n) := by
  rw [decode_seedu64, argN_append]

/-- The canonical `ARG` of an encoded command is `argWord`. -/
theorem argOf_encode (i : Instr) : argOf (encode i) = argWord i :=
  (Laws.Encoding.fields_of_word (opByte i) (argWord i)).2

/-- Settles O6: the decoder does not see the ignored bits, and a port sees only what the decoder gives. -/
theorem ignoredArgumentBits : Obligations.IgnoredArgumentBits := by
  have hseed (hi hi' n : Word) :
      decode (0x02#8 ++ (hi ++ n : BitVec 128)) = decode (0x02#8 ++ (hi' ++ n : BitVec 128)) :=
    (decode_seedu64_append hi n).trans (decode_seedu64_append hi' n).symm
  refine ⟨fun hi hi' n => ⟨hseed hi hi' n, decode_seedu64_append hi n⟩,
    fun arg => ⟨decode_next arg, decode_split arg, decode_get arg⟩,
    fun hi hi' n s => execWord_congr (hseed hi hi' n) s, fun arg arg' s => ⟨?_, ?_, ?_⟩,
    fun n => argOf_encode (.seedu64 n), argOf_encode .next, argOf_encode .split, argOf_encode .get⟩
  · exact execWord_congr ((decode_next arg).trans (decode_next arg').symm) s
  · exact execWord_congr ((decode_split arg).trans (decode_split arg').symm) s
  · exact execWord_congr ((decode_get arg).trans (decode_get arg').symm) s

end Sys2Proof.Machine
end

section
/-! PROOFS. The 17-byte serialised form of command and response words (30_encoding.md R59). -/

namespace Sys2Proof.Machine

open Sys2Proof.Slice0

theorem byteOf_eq_slice8 {n : Nat} (v : BitVec n) (k : Nat) : byteOf v k = slice8 v k := by
  apply BitVec.eq_of_getLsbD_eq
  intro i hi
  simp [byteOf, slice8, hi]

theorem length_leBytes128 (v : Wide) : (leBytes128 v).length = 16 := by simp [leBytes128]

theorem getElem?_leBytes128 (v : Wide) (k : Nat) (h : k < 16) : (leBytes128 v)[k]? = some (byteOf v k) := by
  simp [leBytes128, h]

/-- Sixteen bytes read as a number and written out again. -/
theorem leBytes128_le128 {bs : List Byte} (h : bs.length = 16) : leBytes128 (le128 bs) = bs := by
  refine List.ext_getElem (by rw [length_leBytes128, h]) fun k hk hk' => ?_
  rw [← byteOf_le128 bs h.le k hk']
  simp [leBytes128]

/-- A number written out as sixteen bytes and read back. -/
theorem le128_leBytes128 (v : Wide) : le128 (leBytes128 v) = v := by
  refine eq_of_bytes _ _ fun k hk => ?_
  rw [byteOf_le128 _ (length_leBytes128 v).le k (by rwa [length_leBytes128])]
  simp [leBytes128]

theorem byteOf_append_low (h l : Word) {k : Nat} (hk : k < 8) : byteOf (h ++ l : BitVec 128) k = byteOf l k := by
  apply BitVec.eq_of_getLsbD_eq
  intro i hi
  simp only [byteOf, BitVec.getLsbD_setWidth, BitVec.getLsbD_ushiftRight, BitVec.getLsbD_append]
  simp [show 8 * k + i < 64 by omega]

theorem byteOf_append_high (h l : Word) (k : Nat) : byteOf (h ++ l : BitVec 128) (8 + k) = byteOf h k := by
  apply BitVec.eq_of_getLsbD_eq
  intro i hi
  simp only [byteOf, BitVec.getLsbD_setWidth, BitVec.getLsbD_ushiftRight, BitVec.getLsbD_append]
  simp [show ¬ 8 * (8 + k) + i < 64 by omega, show 8 * (8 + k) + i - 64 = 8 * k + i by omega]

/-- The bytes of two words put together: those of the low word, then those of the high word. -/
theorem leBytes128_append (h l : Word) : leBytes128 (h ++ l : BitVec 128) = leBytes64 l ++ leBytes64 h := by
  have hlow : (List.range 8).map (byteOf (h ++ l : BitVec 128)) = leBytes64 l :=
    List.map_congr_left fun k hk => byteOf_append_low h l (List.mem_range.mp hk)
  have hhigh : ((List.range 8).map (8 + ·)).map (byteOf (h ++ l : BitVec 128)) = leBytes64 h := by
    rw [List.map_map]
    exact List.map_congr_left fun k _ => byteOf_append_high h l k
  rw [leBytes128, show 16 = 8 + 8 from rfl, List.range_add, List.map_append, hlow, hhigh]

/-- The serialised form of a word given by its two fields, a command's or a response's. -/
theorem serialise_append (op : Byte) (arg : Wide) : serialise (op ++ arg) = op :: leBytes128 arg := by
  obtain ⟨hop, harg⟩ := Laws.Encoding.fields_of_word op arg
  rw [serialise, hop, harg]

/-- The serialised form byte by byte. -/
theorem serialise_append_bytes (op : Byte) (arg : Wide) :
    (serialise (op ++ arg)).length = 17 ∧ (serialise (op ++ arg))[0]? = some op ∧
      ∀ k < 16, (serialise (op ++ arg))[1 + k]? = some (slice8 arg k) := by
  rw [serialise_append]
  refine ⟨by rw [List.length_cons, length_leBytes128], rfl, fun k hk => ?_⟩
  rw [Nat.add_comm, List.getElem?_cons_succ, getElem?_leBytes128 arg k hk, byteOf_eq_slice8]

theorem parseWord_serialise_append (w : CommandWord) (rest : List Byte) :
    parseWord (serialise w ++ rest) = .ok (w, rest) := by
  have hl := length_leBytes128 (argOf w)
  have hlong : ¬ (leBytes128 (argOf w) ++ rest).length < 16 := by
    rw [List.length_append, hl]
    omega
  rw [serialise, List.cons_append, parseWord, if_neg hlong, List.take_left' hl, List.drop_left' hl,
    le128_leBytes128, ← word_of_fields]

theorem parseWord_short {bs : List Byte} (h : bs.length < 17) : parseWord bs = .error .truncated := by
  cases bs with
  | nil => rfl
  | cons op bs => exact if_pos (Nat.lt_of_succ_lt_succ h)

theorem decodeBytes_short {bs : List Byte} (h : bs.length < 17) : decodeBytes bs = .error .truncated := by
  simp only [decodeBytes, parseWord_short h]

/-- A FILL of eight bytes writes those of one draw. -/
theorem fillBytes_eight (m64 : Word) (g : Wide) : (fillBytes m64 g 8).2 = leBytes64 (nextOut m64 g) := by
  rw [fillBytes_eight_more m64 g 0]
  simp [fillBytes]

/-- The serialised FILL: OP, then LEN, then BASE, each little-endian (30_encoding.md R52, R59). -/
theorem serialise_encode_fill (base : Addr) (len : Word) :
    serialise (encode (.fill base len)) = 0x05#8 :: (leBytes64 len ++ leBytes64 base) :=
  (serialise_append _ _).trans (congrArg _ (leBytes128_append base len))

/-- Settles O5: the form is OP and then the sixteen bytes of ARG, and a 128-bit value of two words is written out low
word first. -/
theorem serialisedForm : Obligations.SerialisedForm := by
  refine ⟨fun w => ?_, fun r => serialise_append_bytes r.status.code r.data, parseWord_serialise_append,
    fun bs h => decodeBytes_short h, fun bs h => ?_, fun m64 g p => ?_, fun base len k hk => ?_⟩
  · have hw := serialise_append_bytes (opOf w) (argOf w)
    rwa [← word_of_fields] at hw
  · exact (serialise_append _ _).trans (congrArg _ (leBytes128_le128 h))
  · rw [Response.word, serialise_append, leBytes128_append, List.drop_one, List.tail_cons,
      List.take_left' (length_leBytes64 _), fillBytes_eight]
  · have hlen := length_leBytes64 len
    rw [serialise_encode_fill, ← byteOf_eq_slice8, ← byteOf_eq_slice8, ← getElem?_leBytes64 len k hk,
      ← getElem?_leBytes64 base k hk]
    constructor
    · rw [Nat.add_comm, List.getElem?_cons_succ, List.getElem?_append_left (by omega)]
    · rw [show 9 + k = 8 + k + 1 by omega, List.getElem?_cons_succ, List.getElem?_append_right (by omega), hlen,
        Nat.add_sub_cancel_left]

end Sys2Proof.Machine
end

section
/-! PROOFS. The data of responses (30_encoding.md R58): a refusal carries zero, an OK response what its command
gives it. -/

namespace Sys2Proof.Machine

/-- Whatever the one response is that the answer `a` of a command taken up in `s` adds, its DATA is zero if its STATUS
is an error, and meets `P` if it is OK. -/
def RespondsWith (s : State) (P : Wide → Prop) (a : Answer) : Prop :=
  ∀ (t : State) (p : Nat) (e : Status) (d : Wide), a = .next t → t.responses = s.responses ++ [⟨p, e, d⟩] →
    (e ≠ .ok → d = 0#128) ∧ (e = .ok → P d)

section
variable {s : State} {P : Wide → Prop}

/-- The one response more in `u.answer e d` is `(e, d)`. -/
theorem eq_of_answer_responses {u : State} {e e' : Status} {d d' : Wide} {p : Nat} (hu : u.responses = s.responses)
    (h : (u.answer e d).responses = s.responses ++ [⟨p, e', d'⟩]) : e' = e ∧ d' = d := by
  rw [State.answer_responses, hu, List.append_cancel_left_eq, List.cons.injEq, Response.mk.injEq] at h
  obtain ⟨⟨-, he, hd⟩, -⟩ := h
  exact ⟨he.symm, hd.symm⟩

theorem respondsWith_raise {e : Status} (he : e ≠ .ok) : RespondsWith s P (raise e s) := by
  rintro t p e' d ⟨⟩ hr
  obtain ⟨rfl, rfl⟩ := eq_of_answer_responses rfl hr
  exact ⟨fun _ => rfl, fun h => absurd h he⟩

theorem respondsWith_respond {u : State} {d : Wide} (hu : u.responses = s.responses) (hd : P d) :
    RespondsWith s P (respond d u) := by
  rintro t p e d' ⟨⟩ hr
  obtain ⟨rfl, rfl⟩ := eq_of_answer_responses hu hr
  exact ⟨fun h => absurd rfl h, fun _ => hd⟩

theorem respondsWith_withGen {rest : Wide → Answer}
    (h : ∀ g, s.genOf s.cur = some g → RespondsWith s P (rest g)) : RespondsWith s P (withGen s rest) := by
  rcases withGen_cases s rest with ⟨-, he⟩ | ⟨g, hg, he⟩ <;> rw [he]
  · exact respondsWith_raise (by decide)
  · exact h g hg

theorem respondsWith_withBuffer {base : Addr} {len : Word} {rest : Wide → Answer}
    (h : ∀ g, RespondsWith s P (rest g)) : RespondsWith s P (withBuffer base len s rest) := by
  rcases withBuffer_cases base len s rest with ⟨-, he⟩ | ⟨g, -, ⟨-, he⟩ | ⟨-, -, he⟩ | ⟨-, -, he⟩⟩ <;> rw [he]
  · exact respondsWith_raise (by decide)
  · exact respondsWith_raise (by decide)
  · rintro t p e d ⟨⟩
  · exact h g

end

theorem respondsWith_construct (v : Wide) (s : State) : RespondsWith s (· = 0#128) (construct v s) :=
  respondsWith_respond rfl rfl

theorem respondsWith_execLoad (v : Wide) (s : State) : RespondsWith s (· = 0#128) (execLoad v s) := by
  unfold execLoad withNonZero
  split
  · exact respondsWith_raise (by decide)
  · exact respondsWith_construct v s

theorem respondsWith_execFill (base : Addr) (len : Word) (s : State) :
    RespondsWith s (· = 0#128) (execFill base len s) :=
  respondsWith_withBuffer fun _ => respondsWith_respond rfl rfl

theorem respondsWith_execNext (s : State) : RespondsWith s
    (fun d => ∃ g, s.genOf s.cur = some g ∧ d = (nextOut s.cfg.m64 g).setWidth 128) (execNext s) :=
  respondsWith_withGen fun g hg => respondsWith_respond rfl ⟨g, hg, rfl⟩

theorem respondsWith_execSplit (s : State) : RespondsWith s
    (fun d => ∃ g, s.genOf s.cur = some g ∧ d = (splitOf s.cfg.m64 g).2) (execSplit s) :=
  respondsWith_withGen fun g hg => respondsWith_respond rfl ⟨g, hg, rfl⟩

theorem respondsWith_execGet (s : State) : RespondsWith s (fun d => s.genOf s.cur = some d) (execGet s) :=
  respondsWith_withGen fun _ hg => respondsWith_respond rfl hg

/-- The halves of a zero-extended word. -/
theorem halves_of_setWidth (x : Word) :
    (x.setWidth 128 : Wide).extractLsb' 64 64 = 0#64 ∧ (x.setWidth 128 : Wide).extractLsb' 0 64 = x := by
  rw [BitVec.setWidth_eq_append (by decide : 64 ≤ 128)]
  exact halves_of_append 0#64 x

/-- Settles O34: the STATUS and DATA of the response are those `exec` puts there, command by command. -/
theorem responseData : Obligations.ResponseData := by
  intro i s t p e d h hr
  cases i with
  | load v => exact respondsWith_execLoad v s t p e d h hr
  | seed v => exact respondsWith_construct _ s t p e d h hr
  | seedu64 n => exact respondsWith_construct _ s t p e d h hr
  | fill base len => exact respondsWith_execFill base len s t p e d h hr
  | next =>
    refine (respondsWith_execNext s t p e d h hr).imp_right fun hd he => ?_
    obtain ⟨g, hg, rfl⟩ := hd he
    exact ⟨g, hg, halves_of_setWidth _⟩
  | split =>
    refine (respondsWith_execSplit s t p e d h hr).imp_right fun hd he => ?_
    obtain ⟨g, hg, rfl⟩ := hd he
    exact ⟨g, hg, rfl, rfl⟩
  | get => exact (respondsWith_execGet s t p e d h hr).imp_right fun hd he => ⟨d, hd he, rfl, rfl⟩

end Sys2Proof.Machine
end

section
/-! PROOFS. The zero substitution and the integer expansion as functions of words (40_construction.md R70, R73, R75):
what `ZeroFix` and `bswap128` do, and that each step of `FromU64` is one-to-one and fixes 0 for an odd `M128`. -/

namespace Sys2Proof.Machine

open Sys2Proof.Slice0

@[simp] theorem zeroFix_zero : zeroFix 0#128 = 1#128 := rfl

theorem zeroFix_of_ne_zero {v : Wide} (h : v ≠ 0#128) : zeroFix v = v := by simp [zeroFix, h]

/-- `ZeroFix` without its XOR: 1 in place of 0. -/
theorem zeroFix_eq_ite (v : Wide) : zeroFix v = if v = 0#128 then 1#128 else v := by
  split
  next h => rw [h, zeroFix_zero]
  next h => exact zeroFix_of_ne_zero h

theorem zeroFix_ne_zero (v : Wide) : zeroFix v ≠ 0#128 := by
  rw [zeroFix_eq_ite]
  split
  · decide
  · assumption

/-- 0 and 1 are the only two values that `ZeroFix` does not tell apart. -/
theorem eq_or_zero_one_of_zeroFix_eq {u v : Wide} (h : zeroFix u = zeroFix v) :
    u = v ∨ (u = 0#128 ∧ v = 1#128) ∨ (u = 1#128 ∧ v = 0#128) := by
  by_cases hu : u = 0#128 <;> by_cases hv : v = 0#128
  · exact .inl (hu.trans hv.symm)
  · rw [hu, zeroFix_zero, zeroFix_of_ne_zero hv] at h
    exact .inr (.inl ⟨hu, h.symm⟩)
  · rw [hv, zeroFix_zero, zeroFix_of_ne_zero hu] at h
    exact .inr (.inr ⟨h, hv⟩)
  · rw [zeroFix_of_ne_zero hu, zeroFix_of_ne_zero hv] at h
    exact .inl h

/-- Settles O10: by whether the value is zero. -/
theorem zeroFixIsTheZeroSubstitution : Obligations.ZeroFixIsTheZeroSubstitution := by
  refine ⟨fun v => ?_, fun v => zeroFix_of_ne_zero, zeroFix_zero, zeroFix_ne_zero,
    fun u v h hne => (eq_or_zero_one_of_zeroFix_eq h).resolve_left hne⟩
  by_cases h : v = 0#128
  · subst h
    decide
  · rw [zeroFix_of_ne_zero h, beq_false_of_ne h]
    simp

/-- The last byte put to a value is its byte 0. -/
theorem byteOf_append_byte_zero {n : Nat} (h : BitVec n) (b : Byte) : byteOf (h ++ b) 0 = b := by
  apply BitVec.eq_of_getLsbD_eq
  intro i hi
  simp [byteOf, BitVec.getLsbD_append, hi]

/-- The bytes of a value stand one higher once a byte is put behind it. -/
theorem byteOf_append_byte_succ {n : Nat} (h : BitVec n) (b : Byte) (k : Nat) :
    byteOf (h ++ b) (k + 1) = byteOf h k := by
  apply BitVec.eq_of_getLsbD_eq
  intro i hi
  simp only [byteOf, BitVec.getLsbD_setWidth, BitVec.getLsbD_ushiftRight, BitVec.getLsbD_append]
  simp [show ¬ 8 * (k + 1) + i < 8 by omega, show 8 * (k + 1) + i - 8 = 8 * k + i by omega]

theorem byteOf_byte_zero (b : Byte) : byteOf b 0 = b := by simp [byteOf]

/-- `reversedBytes` by its bytes, as `byteOf_bswap128` has the model's. -/
theorem byteOf_reversedBytes (v : Wide) (k : Nat) (hk : k < 16) :
    byteOf (reversedBytes v) k = byteOf v (15 - k) := by
  rw [byteOf_eq_slice8 v]
  unfold reversedBytes
  interval_cases k <;>
    simp only [byteOf_append_byte_succ, byteOf_append_byte_zero, byteOf_byte_zero]

/-- The model's byte reversal is the one written out byte by byte. -/
theorem bswap128_eq_reversedBytes (v : Wide) : bswap128 v = reversedBytes v :=
  eq_of_bytes _ _ fun k hk => by rw [byteOf_bswap128 v k hk, byteOf_reversedBytes v k hk]

/-- Settles O13: the model's primitives are the plain operations, step by step. -/
theorem fromU64IsThreeMultipliesTwoReversals : Obligations.FromU64IsThreeMultipliesTwoReversals := by
  refine ⟨fun m n => ?_, BitVec.toNat_mul, bswap128_eq_reversedBytes⟩
  rw [← bswap128_eq_reversedBytes, ← bswap128_eq_reversedBytes]
  rfl

/-- Reversing the bytes twice gives the value back. -/
theorem bswap128_involutive : Function.Involutive bswap128 := fun v =>
  eq_of_bytes _ _ fun k hk => by
    rw [byteOf_bswap128 _ k hk, byteOf_bswap128 v (15 - k) (by omega), show 15 - (15 - k) = k by omega]

theorem bswap128_injective : Function.Injective bswap128 := bswap128_involutive.injective

/-- An odd multiplier is coprime to 2^128, so it can be cancelled (40_construction.md R75 (a)). -/
theorem mul128_injective {m : Wide} (hm : m.toNat % 2 = 1) : Function.Injective (mul128 · m) := by
  intro v v' (h : mul128 v m = mul128 v' m)
  have hcop : Nat.gcd (2 ^ 128) m.toNat = 1 := (Nat.odd_iff.mpr hm).coprime_two_left.pow_left 128
  have hmod : v.toNat * m.toNat ≡ v'.toNat * m.toNat [MOD 2 ^ 128] := by
    have h' := congrArg BitVec.toNat h
    rwa [mul128, mul128, BitVec.toNat_mul, BitVec.toNat_mul] at h'
  exact BitVec.eq_of_toNat_eq ((hmod.cancel_right_of_coprime hcop).eq_of_lt_of_lt v.isLt v'.isLt)

theorem mul128_zero (m : Wide) : mul128 0#128 m = 0#128 := BitVec.zero_mul

theorem joinWords_hi_injective (lo : Word) : Function.Injective (joinWords · lo) := by
  intro n n' (h : joinWords n lo = joinWords n' lo)
  have hhi := congrArg (BitVec.extractLsb' 64 64) h
  rwa [joinWords, joinWords, (halves_of_append n lo).1, (halves_of_append n' lo).1] at hhi

/-- The five steps of `FromU64` on the 128-bit value it starts from (40_construction.md R73). -/
def expand (m128 v : Wide) : Wide := mul128 (bswap128 (mul128 (bswap128 (mul128 v m128)) m128)) m128

theorem fromU64_eq_expand (m : Wide) (n : Word) : fromU64 m n = expand m (joinWords n 1#64) := rfl

theorem expand_injective {m : Wide} (hm : m.toNat % 2 = 1) : Function.Injective (expand m) :=
  (mul128_injective hm).comp <| bswap128_injective.comp <| (mul128_injective hm).comp <|
    bswap128_injective.comp <| mul128_injective hm

theorem expand_zero (m : Wide) : expand m 0#128 = 0#128 := by
  have hswap : bswap128 0#128 = 0#128 := by decide
  simp only [expand, mul128_zero, hswap]

theorem joinWords_one_ne_zero (n : Word) : joinWords n 1#64 ≠ 0#128 := by
  intro h
  have hlo := (halves_of_append n 1#64).2
  rw [show (n ++ 1#64 : BitVec 128) = 0#128 from h] at hlo
  exact absurd hlo (by decide)

/-- 40_construction.md R75 (a): `n ‖ 1` is not zero, and only zero expands to zero. -/
theorem fromU64_ne_zero {m : Wide} (hm : m.toNat % 2 = 1) (n : Word) : fromU64 m n ≠ 0#128 := by
  rw [fromU64_eq_expand, ← expand_zero m]
  exact (expand_injective hm).ne (joinWords_one_ne_zero n)

/-- 40_construction.md R75 (b). -/
theorem fromU64_injective {m : Wide} (hm : m.toNat % 2 = 1) : Function.Injective (fromU64 m) :=
  (expand_injective hm).comp (joinWords_hi_injective 1#64)

/-- `M128` of a configuration that meets R5's constraints is odd. -/
theorem Config.m128_odd {c : Config} (h : c.wellFormed = true) : c.m128.toNat % 2 = 1 := by
  rw [Config.wellFormed, Bool.and_eq_true, beq_iff_eq, beq_iff_eq] at h
  exact h.2

end Sys2Proof.Machine
end

section
/-! PROOFS. The constructors LOAD, SEED and SEEDU64, and GET (40_construction.md R71, R72, R74, R76). -/

namespace Sys2Proof.Machine

open Sys2Proof.Slice0

theorem decode_load (v : Wide) : decode (0x00#8 ++ v) = .ok (.load v) := decode_of_fields _ _
theorem decode_seed (v : Wide) : decode (0x01#8 ++ v) = .ok (.seed v) := decode_of_fields _ _

theorem exec_load (v : Wide) (s : State) : exec (.load v) s = execLoad v s := rfl
theorem exec_seed (v : Wide) (s : State) : exec (.seed v) s = construct (zeroFix v) s := rfl
theorem exec_seedu64 (n : Word) (s : State) : exec (.seedu64 n) s = construct (fromU64 s.cfg.m128 n) s := rfl
theorem exec_get (s : State) : exec .get s = execGet s := rfl

theorem exec_load_of_ne_zero {v : Wide} (h : v ≠ 0#128) (s : State) : exec (.load v) s = construct v s := by
  rw [exec_load, execLoad, withNonZero, if_neg h]

theorem exec_load_zero (s : State) : exec (.load 0#128) s = raise .eZero s := by
  rw [exec_load, execLoad, withNonZero, if_pos rfl]

theorem exec_get_of_some {s : State} {g : Wide} (h : s.genOf s.cur = some g) : exec .get s = respond g s := by
  rw [exec_get, execGet, withGen_some h]

theorem exec_get_of_none {s : State} (h : s.genOf s.cur = none) : exec .get s = raise .eNoState s := by
  rw [exec_get, execGet, withGen_none h]

/-- The effect the three constructors share. -/
theorem construct_installs (v : Wide) (s : State) : ∃ t, construct v s = .next t ∧ t.genOf s.cur = some v ∧
    t.validOf s.cur = true ∧ t.responses = s.responses ++ [⟨s.cur, .ok, 0#128⟩] := by
  have hgen : ((s.setGen s.cur v).answer .ok 0#128).genOf s.cur = some v := by simp
  exact ⟨_, rfl, hgen, by rw [State.validOf, hgen, Option.isSome_some], rfl⟩

theorem genOf_of_construct {v : Wide} {s t : State} (h : construct v s = .next t) : t.genOf s.cur = some v := by
  obtain ⟨u, hu, hgen, -⟩ := construct_installs v s
  obtain rfl : u = t := by simpa [hu] using h
  exact hgen

/-- Settles O12: SEED is the shared constructor on `ZeroFix(V)`. -/
theorem seedInstallsZeroFixed : Obligations.SeedInstallsZeroFixed := by
  refine ⟨decode_seed, fun bs hl k hk => ?_, fun s v => ?_, fun s v hv => ?_, fun s => ?_,
    fun s t t' v v' ht ht' heq => ?_⟩
  · rw [← byteOf_eq_slice8, byteOf_le128 bs hl.le k (by omega)]
    exact List.getElem?_eq_getElem (by omega)
  · rw [exec_seed, ← zeroFix_eq_ite]
    exact construct_installs _ s
  · rw [exec_seed, zeroFix_of_ne_zero hv, exec_load_of_ne_zero hv]
  · rw [exec_seed, exec_seed, zeroFix_zero, zeroFix_of_ne_zero (by decide)]
  · rw [genOf_of_construct ht, genOf_of_construct ht', Option.some_inj] at heq
    exact eq_or_zero_one_of_zeroFix_eq heq

/-- Settles O14: SEEDU64 is the shared constructor on `FromU64(N)`, with the laws of `FromU64` for an odd `M128`. -/
theorem seedU64InstallsExpansion : Obligations.SeedU64InstallsExpansion := by
  refine ⟨decode_seedu64_append, fun s n => ?_, fun c n hc => fromU64_ne_zero (Config.m128_odd hc) n,
    fun c n n' hc h => fromU64_injective (Config.m128_odd hc) h, ?_, by decide, by decide⟩
  · rw [exec_seedu64]
    exact construct_installs _ s
  · exact fromU64_ne_zero (by decide) 0#64

/-- Settles O11: by LOAD's one check. -/
theorem loadInstallsOrRefusesZero : Obligations.LoadInstallsOrRefusesZero := by
  refine ⟨decode_load, fun s v hv => ?_, exec_load_zero⟩
  rw [exec_load_of_ne_zero hv]
  exact construct_installs v s

/-- GET answers the same whatever response went out before it. -/
theorem exec_get_answer {s : State} {g : Wide} (h : s.genOf s.cur = some g) (e : Status) (d : Wide) :
    exec .get (s.answer e d) = respond g (s.answer e d) :=
  exec_get_of_some (by simpa using h)

/-- Settles O16: by GET's one check. -/
theorem getReadsTheState : Obligations.GetReadsTheState := by
  have hseed {s : State} : (s.setGen s.cur (zeroFix 0#128)).genOf s.cur = some 1#128 := by simp
  refine ⟨decode_get, fun s g => exec_get_of_some, fun s => exec_get_of_none,
    fun s g hinv hg => hinv _ (mem_of_lookupKey hg),
    fun s g hg => ⟨_, _, exec_get_of_some hg, exec_get_answer hg .ok g, ?_⟩,
    fun s => ⟨_, _, exec_seed 0#128 s, exec_get_answer hseed .ok 0#128, ?_⟩⟩
  · simp
  · simp

end Sys2Proof.Machine
end

section
/-! PROOFS. `Next` as a function of the two words of the state, and NEXT (41_next.md R90, R91). -/

namespace Sys2Proof.Machine

open Sys2Proof.Slice0

/-- The two halves of the product `b × M64` added together: what `Out` XORs the low word with (41_next.md R90). -/
def foldedProduct (b m64 : Word) : Word := add64 (lo64 (wmul64 b m64)) (hi64 (wmul64 b m64))

/-- The 128-bit product does not overflow. -/
theorem toNat_wmul64 (p q : Word) : (wmul64 p q).toNat = p.toNat * q.toNat := by
  have hlt : p.toNat * q.toNat < 2 ^ 64 * 2 ^ 64 := Nat.mul_lt_mul'' p.isLt q.isLt
  rw [wmul64, BitVec.toNat_mul, BitVec.toNat_setWidth_of_le (by decide), BitVec.toNat_setWidth_of_le (by decide),
    Nat.mod_eq_of_lt (by omega)]

theorem toNat_lo64 (v : Wide) : (lo64 v).toNat = v.toNat % 2 ^ 64 := by
  rw [lo64, BitVec.extractLsb'_toNat, Nat.shiftRight_zero]

theorem toNat_hi64 (v : Wide) : (hi64 v).toNat = v.toNat / 2 ^ 64 := by
  rw [hi64, BitVec.extractLsb'_toNat, Nat.shiftRight_eq_div_pow, Nat.mod_eq_of_lt (by have := v.isLt; omega)]

theorem toNat_foldedProduct (b m64 : Word) : (foldedProduct b m64).toNat =
    (b.toNat * m64.toNat % 2 ^ 64 + b.toNat * m64.toNat / 2 ^ 64) % 2 ^ 64 := by
  rw [foldedProduct, add64, BitVec.toNat_add, toNat_lo64, toNat_hi64, toNat_wmul64]

/-- The model's rotate is the library's. -/
theorem ror64_seven (v : Word) : ror64 v 7 = v.rotateRight 7 := rfl

/-- Settles O17: by the values of the primitives as numbers. -/
theorem nextFunction : Obligations.NextFunction := by
  refine fun m64 s => ⟨rfl, ?_, ?_⟩
  · rw [← ror64_seven]
    rfl
  · rw [← toNat_foldedProduct, ← BitVec.toNat_xor]
    rfl

theorem foldedProduct_zero (m64 : Word) : foldedProduct 0#64 m64 = 0#64 :=
  BitVec.eq_of_toNat_eq (by simp [toNat_foldedProduct])

theorem foldedProduct_one (m64 : Word) : foldedProduct 1#64 m64 = m64 := by
  refine BitVec.eq_of_toNat_eq ?_
  rw [toNat_foldedProduct, show (1#64).toNat = 1 from rfl]
  omega

/-- `(2^64 − 1) × m` has halves `2^64 − m` and `m − 1`, which add up to `2^64 − 1`. -/
theorem foldedProduct_ones {m64 : Word} (h : m64 ≠ 0#64) :
    foldedProduct 0xFFFFFFFFFFFFFFFF#64 m64 = 0xFFFFFFFFFFFFFFFF#64 := by
  have hpos : m64.toNat ≠ 0 := fun h0 => h (BitVec.eq_of_toNat_eq h0)
  have hlt := m64.isLt
  refine BitVec.eq_of_toNat_eq ?_
  rw [toNat_foldedProduct, show (0xFFFFFFFFFFFFFFFF#64).toNat = 0xFFFFFFFFFFFFFFFF from rfl]
  have hhigh : 0xFFFFFFFFFFFFFFFF * m64.toNat / 2 ^ 64 = m64.toNat - 1 := by omega
  have hlow : 0xFFFFFFFFFFFFFFFF * m64.toNat % 2 ^ 64 = 2 ^ 64 - m64.toNat := by omega
  rw [hhigh, hlow]
  omega

/-- The next state of a state given by its two words. -/
theorem nextState_append (b a : Word) :
    nextState (b ++ a : BitVec 128) = (a ^^^ a >>> 19) ++ (a.rotateRight 7 ^^^ b) := by
  obtain ⟨hhi, hlo⟩ := halves_of_append b a
  rw [nextState, lo64, hi64, hhi, hlo, ror64_seven, joinWords, shr64]

/-- With a zero low word the high word moves down. -/
theorem nextState_append_zero (b : Word) : nextState (b ++ 0#64 : BitVec 128) = 0#64 ++ b := by
  have hrot : (0#64).rotateRight 7 = 0#64 := by decide
  have hmix : 0#64 ^^^ 0#64 >>> 19 = 0#64 := by decide
  rw [nextState_append, hrot, hmix, BitVec.zero_xor]

/-- The output of a state given by its two words. -/
theorem nextOut_append (m64 b a : Word) : nextOut m64 (b ++ a : BitVec 128) = a ^^^ foldedProduct b m64 := by
  obtain ⟨hhi, hlo⟩ := halves_of_append b a
  rw [nextOut, hi64, hhi, lo64, hlo, foldedProduct, lo64, hi64]

theorem nextPair_append (m64 b a : Word) : nextPair m64 (b ++ a : BitVec 128) =
    ((a ^^^ a >>> 19) ++ (a.rotateRight 7 ^^^ b), a ^^^ foldedProduct b m64) := by
  rw [nextPair, nextState_append, nextOut_append]

theorem exec_next (s : State) : exec .next s = execNext s := rfl

theorem exec_next_of_some {s : State} {g : Wide} (h : s.genOf s.cur = some g) : exec .next s =
    respond (0#64 ++ nextOut s.cfg.m64 g) (s.setGen s.cur (nextState g)) := by
  rw [exec_next, execNext, withGen_some h]
  exact congrArg (respond · _) (BitVec.setWidth_eq_append (by decide))

theorem exec_next_of_none {s : State} (h : s.genOf s.cur = none) : exec .next s = raise .eNoState s := by
  rw [exec_next, execNext, withGen_none h]

/-- The effect of a command that ends with a new `S` and an OK response. -/
theorem respond_setGen_installs (g d : Wide) (s : State) : ∃ t, respond d (s.setGen s.cur g) = .next t ∧
    t.genOf s.cur = some g ∧ t.validOf s.cur = true ∧ t.responses = s.responses ++ [⟨s.cur, .ok, d⟩] := by
  have hgen : ((s.setGen s.cur g).answer .ok d).genOf s.cur = some g := by simp
  exact ⟨_, rfl, hgen, by rw [State.validOf, hgen, Option.isSome_some], rfl⟩

/-- Settles O18: by NEXT's one check; the corner cases by the words of the state. -/
theorem nextDrawsOnce : Obligations.NextDrawsOnce := by
  refine ⟨decode_next, fun s g hg => ?_, fun s => exec_next_of_none, fun m => ?_, fun m => ?_, fun m hm => ?_,
    fun m a => ?_, nextState_append_zero, by decide⟩
  · rw [exec_next_of_some hg]
    exact respond_setGen_installs _ _ s
  · rw [show 1#128 = (0#64 ++ 1#64 : BitVec 128) from rfl, nextPair_append, foldedProduct_zero]
    decide
  · rw [show 0x00000000000000010000000000000000#128 = (1#64 ++ 0#64 : BitVec 128) from rfl, nextPair,
      nextState_append_zero, nextOut_append, foldedProduct_one, BitVec.zero_xor]
    rfl
  · rw [show 0xFFFFFFFFFFFFFFFFFFFFFFFFFFFFFFFF#128 =
        (0xFFFFFFFFFFFFFFFF#64 ++ 0xFFFFFFFFFFFFFFFF#64 : BitVec 128) from rfl, nextPair_append,
      foldedProduct_ones hm]
    decide
  · rw [nextOut_append, foldedProduct_zero, BitVec.xor_zero]

end Sys2Proof.Machine
end

section
/-! PROOFS. `SplitOf` by its two draws (42_split.md R110). -/

namespace Sys2Proof.Machine

open Sys2Proof.Slice0

theorem joinWords_inj {h l h' l' : Word} : joinWords h l = joinWords h' l' ↔ h = h' ∧ l = l' := by
  refine ⟨fun heq => ?_, fun ⟨hhi, hlo⟩ => by rw [hhi, hlo]⟩
  obtain ⟨hhi, hlo⟩ := halves_of_append h l
  obtain ⟨hhi', hlo'⟩ := halves_of_append h' l'
  rw [joinWords, joinWords] at heq
  rw [heq] at hhi hlo
  exact ⟨hhi.symm.trans hhi', hlo.symm.trans hlo'⟩

theorem joinWords_eq_zero_iff {h l : Word} : joinWords h l = 0#128 ↔ h = 0#64 ∧ l = 0#64 :=
  joinWords_inj (h' := 0#64) (l' := 0#64)

theorem joinWords_eq_one_iff {h l : Word} : joinWords h l = 1#128 ↔ h = 0#64 ∧ l = 1#64 :=
  joinWords_inj (h' := 0#64) (l' := 1#64)

theorem zeroFix_eq_one_iff {v : Wide} : zeroFix v = 1#128 ↔ v = 0#128 ∨ v = 1#128 := by
  by_cases h : v = 0#128
  · simp [h]
  · simp [zeroFix_of_ne_zero h, h]

/-- A word that is its own shift by 19 is 0: as a number it equals its own quotient by `2^19`. -/
theorem eq_zero_of_xor_shift_eq_zero {a : Word} (h : a ^^^ a >>> 19 = 0#64) : a = 0#64 := by
  have hnat := congrArg BitVec.toNat (BitVec.xor_eq_zero_iff.mp h)
  rw [BitVec.toNat_ushiftRight, Nat.shiftRight_eq_div_pow] at hnat
  exact BitVec.eq_of_toNat_eq (show a.toNat = 0 by omega)

/-- `T` takes no non-zero state to 0: the high word gives back the old low word, and then the low word the old high
word (41_next.md R92). -/
theorem nextState_ne_zero {s : Wide} (hs : s ≠ 0#128) : nextState s ≠ 0#128 := by
  rw [← append_of_halves s] at hs ⊢
  generalize s.extractLsb' 64 64 = b at hs ⊢
  generalize s.extractLsb' 0 64 = a at hs ⊢
  intro h
  have ha : a = 0#64 :=
    eq_zero_of_xor_shift_eq_zero (joinWords_eq_zero_iff.mp ((nextState_append b a).symm.trans h)).1
  rw [ha, nextState_append_zero] at h
  exact hs (joinWords_eq_zero_iff.mpr ⟨(joinWords_eq_zero_iff.mp h).2, ha⟩)

theorem splitOf_eq (m64 : Word) (s : Wide) : splitOf m64 s =
    (nextState (nextState s), zeroFix (joinWords (nextOut m64 (nextState s)) (nextOut m64 s))) := rfl

/-- The child with the zero test on the two draws. -/
theorem zeroFix_joinWords (h l : Word) :
    zeroFix (joinWords h l) = if h = 0#64 ∧ l = 0#64 then 1#128 else (h ++ l : BitVec 128) :=
  (zeroFix_eq_ite _).trans (if_congr joinWords_eq_zero_iff rfl rfl)

/-- Settles O20: the child is `ZeroFix` of the two draws, and `T` keeps a state non-zero. -/
theorem splitFunction : Obligations.SplitFunction := by
  intro m64 s x0 x1 child
  have hchild : zeroFix (joinWords x1 x0) = child := zeroFix_joinWords x1 x0
  refine ⟨?_, ?_, ?_, fun hs => nextState_ne_zero (nextState_ne_zero hs)⟩
  · rw [splitOf_eq, hchild]
  · rw [← hchild]
    exact zeroFix_ne_zero _
  · rw [← hchild, zeroFix_eq_one_iff, joinWords_eq_zero_iff, joinWords_eq_one_iff]
    exact or_congr and_comm and_comm

end Sys2Proof.Machine
end

section
/-! PROOFS. `FillBytes` by its draws (43_fill.md R120). -/

namespace Sys2Proof.Machine

open Sys2Proof.Slice0

theorem drawCount_eq_ceil8 (L : Nat) : drawCount L = ceil8 L := by
  unfold drawCount ceil8
  split <;> omega

/-- `ceil(L/8)` is the least `n` with `8n ≥ L`. -/
theorem ceil8_bounds (L : Nat) : L ≤ 8 * ceil8 L ∧ 8 * ceil8 L < L + 8 := by
  rw [← drawCount_eq_ceil8]
  unfold drawCount
  omega

theorem getElem?_draws (m64 : Word) {n k : Nat} (s : Wide) (h : k < n) :
    (draws m64 n s).2[k]? = some (drawAt m64 s k) := by
  induction n generalizing s k with
  | zero => omega
  | succ n ih =>
    cases k with
    | zero => rfl
    | succ k => exact ih (nextState s) (Nat.lt_of_succ_lt_succ h)

/-- In the concatenation of the words' bytes, word `k` has positions `8k` to `8k + 7`. -/
theorem getElem?_flatMap_leBytes64 {xs : List Word} {x : Word} {k i : Nat} (hx : xs[k]? = some x) (hi : i < 8) :
    (xs.flatMap leBytes64)[8 * k + i]? = some (byteOf x i) := by
  induction xs generalizing k with
  | nil => simp at hx
  | cons y ys ih =>
    have hy := length_leBytes64 y
    rw [List.flatMap_cons]
    cases k with
    | zero =>
      obtain rfl : y = x := by simpa using hx
      rw [List.getElem?_append_left (by omega), Nat.mul_zero, Nat.zero_add, getElem?_leBytes64 y i hi]
    | succ k =>
      rw [List.getElem?_append_right (by omega), hy, show 8 * (k + 1) + i - 8 = 8 * k + i by omega]
      exact ih (by simpa using hx)

theorem fillBytes_state (m64 : Word) (s : Wide) (L : Nat) : (fillBytes m64 s L).1 = afterDraws (ceil8 L) s := by
  rw [← drawCount_eq_ceil8]
  exact draws_state m64 (drawCount L) s

theorem length_fillBytes (m64 : Word) (s : Wide) (L : Nat) : (fillBytes m64 s L).2.length = L := by
  have hL := (ceil8_bounds L).1
  rw [fillBytes, List.length_take, length_flatMap_leBytes64, draws_length, drawCount_eq_ceil8]
  exact Nat.min_eq_left hL

theorem getElem?_fillBytes (m64 : Word) (s : Wide) {L j : Nat} (h : j < L) :
    (fillBytes m64 s L).2[j]? = some (drawnByte m64 s j) := by
  have hdraw : j / 8 < drawCount L := by
    unfold drawCount
    omega
  have hbyte := getElem?_flatMap_leBytes64 (getElem?_draws m64 s hdraw) (Nat.mod_lt j (by decide : 0 < 8))
  rw [Nat.div_add_mod] at hbyte
  exact (List.getElem?_take_of_lt h).trans hbyte

/-- Settles O22: draw `k` supplies the positions `8k` to `8k + 7` of the concatenation, and `ceil(L/8)` draws reach
every position below `L`. -/
theorem fillBytesFunction : Obligations.FillBytesFunction := fun m64 s L =>
  ⟨fillBytes_state m64 s L, length_fillBytes m64 s L, fun _ hj => getElem?_fillBytes m64 s hj, ceil8_bounds L⟩

end Sys2Proof.Machine
end

section
/-! PROOFS. Refusals (60_exceptions.md R140, R142): a refused command leaves its response and nothing else, and the
order of the checks. -/

namespace Sys2Proof.Machine

open Sys2Proof.Slice0

theorem raise_eq_answered (e : Status) (s : State) : raise e s = .next (answered s e 0#128) := rfl

/-- A command that ends with a next state was refused, which leaves the state as it was but for the response, or left
an OK response. -/
theorem exec_refused_or_ok {i : Instr} {s t : State} (h : exec i s = .next t) :
    (∃ e, e ≠ .ok ∧ t = answered s e 0#128) ∨ (∃ d, t.responses = s.responses ++ [⟨s.cur, .ok, d⟩]) := by
  have hanswer : CommandAnswer s (.next t) := h ▸ exec_commandAnswer i s
  cases hanswer with
  | refused e he => exact .inl ⟨e, he, rfl⟩
  | read d => exact .inr ⟨d, rfl⟩
  | advanced g d => exact .inr ⟨d, rfl⟩
  | filled base bs g => exact .inr ⟨0#128, rfl⟩

/-- Settles O33: by what a command can answer. -/
theorem errorsChangeNothing : Obligations.ErrorsChangeNothing :=
  ⟨raise_eq_answered, fun _ _ _ => exec_refused_or_ok⟩

/-- At most one error is reported per command. -/
theorem exec_one_response {i : Instr} {s t : State} (h : exec i s = .next t) :
    ∃ r, t.responses = s.responses ++ [r] := by
  rcases exec_refused_or_ok h with ⟨e, -, rfl⟩ | ⟨d, hd⟩
  · exact ⟨_, rfl⟩
  · exact ⟨_, hd⟩

theorem exec_split_of_none {s : State} (h : s.genOf s.cur = none) : exec .split s = raise .eNoState s :=
  withGen_none h _

/-- FILL looks at the state before its buffer. -/
theorem exec_fill_of_none {s : State} (h : s.genOf s.cur = none) (base : Addr) (len : Word) :
    exec (.fill base len) s = raise .eNoState s :=
  withGen_none h _

theorem bufferWraps_eq_true_iff (base : Addr) (len : Word) :
    bufferWraps base len = true ↔ 2 ^ 64 < base.toNat + len.toNat :=
  decide_eq_true_iff

/-- The range check comes before the buffer's writability. -/
theorem exec_fill_of_wraps {s : State} {g : Wide} {base : Addr} {len : Word} (hg : s.genOf s.cur = some g)
    (hwrap : bufferWraps base len = true) : exec (.fill base len) s = raise .eRange s := by
  change withBuffer base len s _ = _
  rw [withBuffer, withGen_some hg, if_pos hwrap]

/-- The answer `a` of a command taken up in `s` is not the refusal E_NOSTATE. -/
def NotNoState (s : State) (a : Answer) : Prop :=
  ∀ (t : State) (d : Wide), a = .next t → t.responses ≠ s.responses ++ [⟨s.cur, .eNoState, d⟩]

theorem notNoState_raise {e : Status} (he : e ≠ .eNoState) (s : State) : NotNoState s (raise e s) := by
  rintro t d ⟨⟩ hr
  exact he (eq_of_answer_responses rfl hr).1.symm

theorem notNoState_construct (v : Wide) (s : State) : NotNoState s (construct v s) := by
  rintro t d ⟨⟩ hr
  exact absurd (eq_of_answer_responses (State.setGen_responses s s.cur v) hr).1 (by decide)

theorem notNoState_load (v : Wide) (s : State) : NotNoState s (exec (.load v) s) := by
  by_cases hv : v = 0#128
  · rw [hv, exec_load_zero]
    exact notNoState_raise (by decide) s
  · rw [exec_load_of_ne_zero hv]
    exact notNoState_construct v s

/-- Settles O24: a word that does not decode is refused before the state is looked at, a missing state before the
operands; the constructors have no state check. -/
theorem checkOrder : Obligations.CheckOrder := by
  refine ⟨fun op arg s hop => ?_, fun s base len hg => ?_, fun s g base len hg hwrap => ?_, exec_load_zero,
    fun s t v n h d => ?_, fun i s t => exec_one_response⟩
  · obtain ⟨e, he⟩ := decode_error_of_seven_le hop arg
    exact execWord_of_error he s
  · exact ⟨exec_next_of_none hg, exec_split_of_none hg, exec_get_of_none hg, exec_fill_of_none hg base len⟩
  · exact exec_fill_of_wraps hg ((bufferWraps_eq_true_iff base len).mpr hwrap)
  · rcases h with h | h | h
    · exact notNoState_load v s t d h
    · exact notNoState_construct (zeroFix v) s t d h
    · exact notNoState_construct (fromU64 s.cfg.m128 n) s t d h

end Sys2Proof.Machine
end

section
/-! PROOFS. The decoder and the encoder undo each other (30_encoding.md R50 to R56). -/

namespace Sys2Proof.Machine

theorem decode_fill (arg : Wide) : decode (0x05#8 ++ arg) = .ok (.fill (argBase arg) (argLen arg)) :=
  decode_of_fields _ _

/-- `BASE` and `LEN` are the two halves of `ARG`. -/
theorem decode_fill_append (base : Addr) (len : Word) :
    decode (0x05#8 ++ (base ++ len : BitVec 128)) = .ok (.fill base len) := by
  obtain ⟨hbase, hlen⟩ := halves_of_append base len
  rw [decode_fill, argBase, argLen, hbase, hlen]

/-- Settles O1: each row of R54 is decoded at its OP byte, and its operands are read back from ARG. -/
theorem decodeOfEncode : Obligations.DecodeOfEncode := by
  intro i
  cases i with
  | load v => exact decode_load v
  | seed v => exact decode_seed v
  | seedu64 n => exact decode_seedu64_append 0#64 n
  | next => exact decode_next 0#128
  | split => exact decode_split 0#128
  | fill base len => exact decode_fill_append base len
  | get => exact decode_get 0#128

/-- The OP byte of an encoded command is its row's. -/
theorem opOf_encode (i : Instr) : opOf (encode i) = opByte i :=
  (Laws.Encoding.fields_of_word (opByte i) (argWord i)).1

/-- What of `ARG` the command `i` is given by: all of it, its low half, or nothing (30_encoding.md R53, R56). -/
def usedArg (arg : Wide) : Instr → Wide
  | .load _ | .seed _ | .fill _ _ => arg
  | .seedu64 _ => arg &&& 0xFFFFFFFFFFFFFFFF#128
  | .next | .split | .get => 0#128

/-- A value with its high half cleared is its low half under 64 zero bits. -/
theorem zero_append_argN (arg : Wide) : (0#64 ++ argN arg : BitVec 128) = arg &&& 0xFFFFFFFFFFFFFFFF#128 := by
  have hmask : (0xFFFFFFFFFFFFFFFF#128 : Wide) = 0#64 ++ BitVec.allOnes 64 := by decide
  calc (0#64 ++ argN arg : BitVec 128)
      = (arg.extractLsb' 64 64 &&& 0#64) ++ (arg.extractLsb' 0 64 &&& BitVec.allOnes 64) := by
        rw [BitVec.and_zero, BitVec.and_allOnes, argN]
    _ = arg &&& 0xFFFFFFFFFFFFFFFF#128 := by rw [← BitVec.and_append, append_of_halves, hmask]

/-- A word that decodes has one of the seven OP bytes of R54, and its command the operands that ARG gives. -/
theorem opByte_argWord_of_decode {op : Byte} {arg : Wide} {i : Instr} (h : decode (op ++ arg) = .ok i) :
    opByte i = op ∧ argWord i = usedArg arg i := by
  have hop : op.toNat ≤ 6 := by
    by_contra hlt
    obtain ⟨e, he⟩ := decode_error_of_seven_le (by omega : 7 ≤ op.toNat) arg
    rw [he] at h
    cases h
  obtain ⟨k, hk, rfl⟩ : ∃ k ≤ 6, op = BitVec.ofNat 8 k := ⟨op.toNat, hop, by simp⟩
  interval_cases k
  · obtain rfl : Instr.load arg = i := Except.ok.inj ((decode_load arg).symm.trans h)
    exact ⟨rfl, rfl⟩
  · obtain rfl : Instr.seed arg = i := Except.ok.inj ((decode_seed arg).symm.trans h)
    exact ⟨rfl, rfl⟩
  · obtain rfl : Instr.seedu64 (argN arg) = i := Except.ok.inj ((decode_seedu64 arg).symm.trans h)
    exact ⟨rfl, zero_append_argN arg⟩
  · obtain rfl : Instr.next = i := Except.ok.inj ((decode_next arg).symm.trans h)
    exact ⟨rfl, rfl⟩
  · obtain rfl : Instr.split = i := Except.ok.inj ((decode_split arg).symm.trans h)
    exact ⟨rfl, rfl⟩
  · obtain rfl : Instr.fill (argBase arg) (argLen arg) = i := Except.ok.inj ((decode_fill arg).symm.trans h)
    exact ⟨rfl, append_of_halves arg⟩
  · obtain rfl : Instr.get = i := Except.ok.inj ((decode_get arg).symm.trans h)
    exact ⟨rfl, rfl⟩

/-- Settles O2: by the OP byte of the word. -/
theorem encodeOfDecode : Obligations.EncodeOfDecode := by
  intro w i h
  rw [word_of_fields w] at h
  obtain ⟨hop, harg⟩ := opByte_argWord_of_decode h
  refine ⟨(opOf_encode i).trans hop, (argOf_encode i).trans (harg.trans ?_)⟩
  cases i <;> rfl

/-- Settles O4: the nine words are evaluated. -/
theorem specWordsDecode : Obligations.SpecWordsDecode :=
  ⟨by decide, by decide, by decide, by decide, by decide, by decide, by decide, by decide, by decide⟩

end Sys2Proof.Machine
end

section
/-! PROOFS. The iterator of a FILL byte write by byte write (43_fill.md R122, 10_state.md R20): where it stands, and the
bytes it has written. -/

namespace Sys2Proof.Machine

open Sys2Proof.Slice0

theorem afterDraws_succ (n : Nat) (g : Wide) : afterDraws (n + 1) g = nextState (afterDraws n g) :=
  Function.iterate_succ_apply' nextState n g

theorem afterDraws_ne_zero {g : Wide} (h : g ≠ 0#128) (n : Nat) : afterDraws n g ≠ 0#128 := by
  induction n with
  | zero => exact h
  | succ n ih =>
    rw [afterDraws_succ]
    exact nextState_ne_zero ih

/-- The bytes drawn from `g` at the `n` positions from `i` on. -/
def drawnBytes (m64 : Word) (g : Wide) (i n : Nat) : List Byte := (List.range' i n).map (drawnByte m64 g)

@[simp] theorem length_drawnBytes (m64 : Word) (g : Wide) (i n : Nat) : (drawnBytes m64 g i n).length = n := by
  simp [drawnBytes]

theorem getElem_drawnBytes (m64 : Word) (g : Wide) (i n k : Nat) (hk : k < (drawnBytes m64 g i n).length) :
    (drawnBytes m64 g i n)[k] = drawnByte m64 g (i + k) := by
  simp [drawnBytes]

theorem drawnBytes_succ (m64 : Word) (g : Wide) (i n : Nat) :
    drawnBytes m64 g i (n + 1) = drawnByte m64 g i :: drawnBytes m64 g (i + 1) n := by
  simp [drawnBytes, List.range'_succ]

/-- The bytes of a whole FILL are the drawn ones. -/
theorem fillBytes_bytes (m64 : Word) (g : Wide) (L : Nat) : (fillBytes m64 g L).2 = drawnBytes m64 g 0 L := by
  refine List.ext_getElem? fun k => ?_
  by_cases hk : k < L
  · rw [getElem?_fillBytes m64 g hk, List.getElem?_eq_getElem (by simpa using hk), getElem_drawnBytes, Nat.zero_add]
  · rw [List.getElem?_eq_none (by rw [length_fillBytes]; omega), List.getElem?_eq_none (by simpa using hk)]

/-- The iterator of a FILL of `len` bytes stands where its `r.i` byte writes from `S = g` leave it: `ceil(i/8)` draws
made, and in the shift word the current draw, moved right by eight bits for each tail byte. -/
structure FillRun.StandsAt (m64 : Word) (g : Wide) (len : Nat) (r : FillRun) : Prop where
  gen : r.gen = afterDraws (drawCount r.i) g
  word : 0 < r.i → r.w = drawAt m64 g ((r.i - 1) / 8) >>> (8 * (r.i - bodyBytes len))

section
variable {m64 : Word} {g : Wide} {len : Nat} {r : FillRun}

/-- The word the next byte is taken from holds draw `i / 8`, freshly made where that is a new one. -/
theorem fillWord_of_standsAt (h : r.StandsAt m64 g len) (hi : r.i < len) :
    fillWord m64 r = (afterDraws (drawCount (r.i + 1)) g, drawAt m64 g (r.i / 8) >>> (8 * (r.i - bodyBytes len))) := by
  unfold fillWord
  split
  next h8 =>
    have hcount : drawCount r.i = r.i / 8 := by unfold drawCount; omega
    have hcount' : drawCount (r.i + 1) = r.i / 8 + 1 := by unfold drawCount; omega
    have hbody : r.i - bodyBytes len = 0 := by unfold bodyBytes; omega
    rw [nextPair, h.gen, hcount, hcount', afterDraws_succ, hbody]
    simp [drawAt]
  next h8 =>
    have hcount : drawCount (r.i + 1) = drawCount r.i := by unfold drawCount; omega
    have hdraw : (r.i - 1) / 8 = r.i / 8 := by omega
    rw [h.gen, h.word (by omega), hcount, hdraw]

/-- The byte taken from a word that holds draw `i / 8` is byte `i` of the drawn ones, and the word moves on to hold what
the next offset asks. -/
theorem takeByte_of_drawAt {i : Nat} (hi : i < len) :
    takeByte len i (drawAt m64 g (i / 8) >>> (8 * (i - bodyBytes len)))
      = (drawnByte m64 g i, drawAt m64 g (i / 8) >>> (8 * (i + 1 - bodyBytes len))) := by
  unfold takeByte
  split
  next hbody =>
    rw [show i - bodyBytes len = 0 by omega, show i + 1 - bodyBytes len = 0 by omega]
    simp [byteOf, drawnByte]
  next hbody =>
    have htail : i - bodyBytes len = i % 8 := by unfold bodyBytes at *; omega
    rw [show i + 1 - bodyBytes len = i - bodyBytes len + 1 by omega, htail, Nat.mul_add, BitVec.shiftRight_add]
    simp [byteOf, drawnByte, shr64]

/-- One byte write from where the iterator stands: it writes the drawn byte at its offset, and stands at the next. -/
theorem fillByte_of_standsAt (h : r.StandsAt m64 g len) (hi : r.i < len) (base : Addr) :
    (fillByte m64 base len r).StandsAt m64 g len ∧ (fillByte m64 base len r).i = r.i + 1 ∧
      (fillByte m64 base len r).mem = memWrite (bufferAddr base r.i) (drawnByte m64 g r.i) r.mem := by
  have hstep : fillByte m64 base len r =
      { gen := afterDraws (drawCount (r.i + 1)) g
        i := r.i + 1
        w := drawAt m64 g (r.i / 8) >>> (8 * (r.i + 1 - bodyBytes len))
        mem := memWrite (bufferAddr base r.i) (drawnByte m64 g r.i) r.mem } := by
    simp only [fillByte, fillWord_of_standsAt h hi, takeByte_of_drawAt hi]
  rw [hstep]
  exact ⟨⟨rfl, fun _ => rfl⟩, rfl, rfl⟩

/-- Byte writes within the buffer write the drawn bytes in order, and the iterator stands at the offset reached. -/
theorem fillRun_of_standsAt {n : Nat} (h : r.StandsAt m64 g len) (hn : r.i + n ≤ len) (base : Addr) :
    (fillRun m64 base len n r).StandsAt m64 g len ∧
      (fillRun m64 base len n r).mem = memWriteBytes (bufferAddr base r.i) (drawnBytes m64 g r.i n) r.mem := by
  induction n generalizing r with
  | zero => exact ⟨h, rfl⟩
  | succ n ih =>
    obtain ⟨hstands, hi, hmem⟩ := fillByte_of_standsAt h (by omega) base
    obtain ⟨hend, hwritten⟩ := ih hstands (by omega)
    refine ⟨hend, hwritten.trans ?_⟩
    rw [hi, hmem, drawnBytes_succ, memWriteBytes, bufferAddr, bufferAddr, BitVec.ofNat_add, BitVec.add_assoc]

end

/-- A FILL that has just begun stands at its start. -/
theorem standsAt_begin (m64 : Word) (g : Wide) (len : Nat) (w : Word) (m : List Host.Cell) :
    ({ gen := g, i := 0, w := w, mem := m } : FillRun).StandsAt m64 g len :=
  ⟨by simp [drawCount, afterDraws], fun h => absurd h (Nat.lt_irrefl 0)⟩

/-- `jobAdmitted` says that the iterator of the FILL stands where its offset asks, beside its checks. -/
theorem jobAdmitted_iff {c : Config} {g : Wide} {j : FillJob} (m : List Host.Cell) :
    jobAdmitted c g j ↔ j.i ≤ j.len.toNat ∧ bufferWraps j.base j.len = false ∧
      bufferWritable c j.base j.len.toNat = true ∧
      ({ gen := j.gen, i := j.i, w := j.w, mem := m } : FillRun).StandsAt c.m64 g j.len.toNat :=
  ⟨fun ⟨hi, hr, hw, hgen, hword⟩ => ⟨hi, hr, hw, hgen, hword⟩,
    fun ⟨hi, hr, hw, hgen, hword⟩ => ⟨hi, hr, hw, hgen, hword⟩⟩

/-- What a FILL in progress has done once it is let run for at most `p` moves. -/
theorem jobRun_of_admitted {s : State} {g : Wide} {j : FillJob} (h : jobAdmitted s.cfg g j) (p : Nat) :
    (jobRun p j s).StandsAt s.cfg.m64 g j.len.toNat ∧ (jobRun p j s).i = j.i + min p (j.len.toNat - j.i) ∧
      (jobRun p j s).mem = memWriteBytes (bufferAddr j.base j.i)
        (drawnBytes s.cfg.m64 g j.i (min p (j.len.toNat - j.i))) s.mem := by
  obtain ⟨hi, -, -, hstands⟩ := (jobAdmitted_iff s.mem).mp h
  obtain ⟨hend, hmem⟩ := fillRun_of_standsAt hstands
    (show j.i + min p (j.len.toNat - j.i) ≤ j.len.toNat by omega) j.base
  exact ⟨hend, fillRun_offset _ _ _ _ _, hmem⟩

end Sys2Proof.Machine
end

section
/-! PROOFS. What a command, a FILL in progress and a stuck FILL change, said once: of the tables nothing but the entry
of the port that runs (60_exceptions.md R150). -/

namespace Sys2Proof.Machine

open Sys2Proof.Slice0

section
variable {α : Type} {k : Nat} {v : α} {t : List (Nat × α)}

theorem lookupKey_eq_none_iff : lookupKey k t = none ↔ ∀ c ∈ t, c.1 ≠ k := by
  induction t with
  | nil => simp
  | cons d t ih =>
    by_cases hd : d.1 = k
    · simp [lookupKey, hd]
    · simp [lookupKey, hd, ih]

theorem eraseKey_eraseKey : eraseKey k (eraseKey k t) = eraseKey k t := by simp [eraseKey]

theorem forall_mem_insertKey {P : Nat × α → Prop} (h : ∀ c ∈ t, P c) (hv : P (k, v)) : ∀ c ∈ insertKey k v t, P c := by
  intro c hc
  rcases mem_insertKey hc with rfl | hc
  · exact hv
  · exact h c hc

theorem forall_mem_eraseKey {P : Nat × α → Prop} (h : ∀ c ∈ t, P c) : ∀ c ∈ eraseKey k t, P c :=
  fun c hc => h c (mem_eraseKey.mp hc).1

end

/-- `t` is `s` after port `s.cur` has run: of the generators, the fills in progress and the stuck ones only its own
entries may differ, its generator is not lost, and what is answered is answered at its port. Memory is left open. -/
structure OwnMove (s t : State) : Prop where
  cfg : t.cfg = s.cfg
  cur : t.cur = s.cur
  inputs : t.inputs = s.inputs
  commands : t.commands = s.commands
  gens : eraseKey s.cur t.gens = eraseKey s.cur s.gens
  jobs : eraseKey s.cur t.jobs = eraseKey s.cur s.jobs
  stuck : eraseKey s.cur t.stuck = eraseKey s.cur s.stuck
  valid : s.validOf s.cur = true → t.validOf s.cur = true
  responses : ∃ rs, t.responses = s.responses ++ rs ∧ ∀ r ∈ rs, r.port = s.cur

namespace OwnMove

variable {s t u : State}

theorem trans (h : OwnMove s t) (h' : OwnMove t u) : OwnMove s u := by
  obtain ⟨rs, hrs, hport⟩ := h.responses
  obtain ⟨rs', hrs', hport'⟩ := h'.responses
  have hgens := h'.gens
  have hjobs := h'.jobs
  have hstuck := h'.stuck
  have hvalid := h'.valid
  rw [h.cur] at hgens hjobs hstuck hvalid hport'
  refine ⟨h'.cfg.trans h.cfg, h'.cur.trans h.cur, h'.inputs.trans h.inputs, h'.commands.trans h.commands,
    hgens.trans h.gens, hjobs.trans h.jobs, hstuck.trans h.stuck, hvalid ∘ h.valid, rs ++ rs', ?_, ?_⟩
  · rw [hrs', hrs, List.append_assoc]
  · intro r hr
    exact (List.mem_append.mp hr).elim (hport r) (hport' r)

/-- A move that changes none of the tables and answers nothing. -/
theorem withMem (s : State) (m : List Host.Cell) : OwnMove s { s with mem := m } :=
  ⟨rfl, rfl, rfl, rfl, rfl, rfl, rfl, id, [], by simp, by simp⟩

theorem answer (s : State) (e : Status) (d : Wide) : OwnMove s (s.answer e d) :=
  ⟨rfl, rfl, rfl, rfl, rfl, rfl, rfl, id, [⟨s.cur, e, d⟩], rfl, by simp⟩

theorem setGen (s : State) (g : Wide) : OwnMove s (s.setGen s.cur g) :=
  ⟨rfl, rfl, rfl, rfl, eraseKey_insertKey _ _ _, rfl, rfl, fun _ => by simp [State.validOf], [], by simp, by simp⟩

theorem setJob (s : State) (j : FillJob) : OwnMove s (s.setJob s.cur j) :=
  ⟨rfl, rfl, rfl, rfl, rfl, eraseKey_insertKey _ _ _, rfl, id, [], by simp, by simp⟩

theorem dropJob (s : State) : OwnMove s (s.dropJob s.cur) :=
  ⟨rfl, rfl, rfl, rfl, rfl, eraseKey_eraseKey, rfl, id, [], by simp, by simp⟩

theorem stick (s : State) (f : StuckFill) : OwnMove s (s.stick f) :=
  ⟨rfl, rfl, rfl, rfl, eraseKey_insertKey _ _ _, rfl, eraseKey_insertKey _ _ _, fun _ => by simp [State.validOf], [],
    by simp, by simp⟩

theorem genOf_ne (h : OwnMove s t) {k : Nat} (hk : k ≠ s.cur) : t.genOf k = s.genOf k := by
  rw [State.genOf, ← lookupKey_eraseKey_ne hk, h.gens, lookupKey_eraseKey_ne hk, State.genOf]

theorem jobOf_ne (h : OwnMove s t) {k : Nat} (hk : k ≠ s.cur) : t.jobOf k = s.jobOf k := by
  rw [State.jobOf, ← lookupKey_eraseKey_ne hk, h.jobs, lookupKey_eraseKey_ne hk, State.jobOf]

theorem stuckOf_ne (h : OwnMove s t) {k : Nat} (hk : k ≠ s.cur) : t.stuckOf k = s.stuckOf k := by
  rw [State.stuckOf, ← lookupKey_eraseKey_ne hk, h.stuck, lookupKey_eraseKey_ne hk, State.stuckOf]

theorem validOf_kept (h : OwnMove s t) {k : Nat} (hv : s.validOf k = true) : t.validOf k = true := by
  by_cases hk : k = s.cur
  · subst hk
    exact h.valid hv
  · rwa [State.validOf, h.genOf_ne hk]

theorem mem_jobs_of_ne (h : OwnMove s t) {c : Nat × FillJob} (hc : c ∈ t.jobs) (hk : c.1 ≠ s.cur) : c ∈ s.jobs :=
  (mem_eraseKey.mp (h.jobs ▸ mem_eraseKey.mpr ⟨hc, hk⟩)).1

theorem mem_stuck_of_ne (h : OwnMove s t) {c : Nat × StuckFill} (hc : c ∈ t.stuck) (hk : c.1 ≠ s.cur) : c ∈ s.stuck :=
  (mem_eraseKey.mp (h.stuck ▸ mem_eraseKey.mpr ⟨hc, hk⟩)).1

end OwnMove

/-- The value a constructor that is not refused gives the generator (40_construction.md R71, R72, R74). -/
inductive Constructs (c : Config) : Instr → Wide → Prop where
  | load (v : Wide) (hv : v ≠ 0#128) : Constructs c (.load v) v
  | seed (v : Wide) : Constructs c (.seed v) (zeroFix v)
  | seedu64 (n : Word) : Constructs c (.seedu64 n) (fromU64 c.m128 n)

/-- How many draws a scalar command makes, and the DATA it answers with from `S = g` (41_next.md R91, 42_split.md
R111). -/
inductive Draws (c : Config) (g : Wide) : Instr → Nat → Wide → Prop where
  | next : Draws c g .next 1 (0#64 ++ nextOut c.m64 g)
  | split : Draws c g .split 2 (splitOf c.m64 g).2

/-- The state a command `i` executed in `s` answers. -/
inductive Executed (s : State) : Instr → State → Prop where
  | refused (i : Instr) (e : Status) (he : e ≠ .ok) : Executed s i (s.answer e 0#128)
  | read (g : Wide) (hg : s.genOf s.cur = some g) : Executed s .get (s.answer .ok g)
  | constructed (i : Instr) (v : Wide) (hi : Constructs s.cfg i v) :
      Executed s i ((s.setGen s.cur v).answer .ok 0#128)
  | drew (i : Instr) (g : Wide) (n : Nat) (d : Wide) (hg : s.genOf s.cur = some g) (hi : Draws s.cfg g i n d) :
      Executed s i ((s.setGen s.cur (afterDraws n g)).answer .ok d)
  | filled (base : Addr) (len : Word) (g : Wide) (hg : s.genOf s.cur = some g) (hr : bufferWraps base len = false)
      (hw : bufferWritable s.cfg base len.toNat = true) :
      Executed s (.fill base len) (((s.writeBytes base (drawnBytes s.cfg.m64 g 0 len.toNat)).setGen s.cur
        (afterDraws (ceil8 len.toNat) g)).answer .ok 0#128)

theorem exec_split_of_some {s : State} {g : Wide} (h : s.genOf s.cur = some g) : exec .split s =
    respond (splitOf s.cfg.m64 g).2 (s.setGen s.cur (nextState (nextState g))) :=
  withGen_some h _

theorem exec_fill (base : Addr) (len : Word) (s : State) : exec (.fill base len) s = execFill base len s := rfl

/-- Behind its three checks the command goes on with `S`. -/
theorem withBuffer_of_ready {s : State} {g : Wide} {base : Addr} {len : Word} {rest : Wide → Answer}
    (hg : s.genOf s.cur = some g) (hr : bufferWraps base len = false)
    (hw : bufferWritable s.cfg base len.toNat = true) : withBuffer base len s rest = rest g := by
  simp only [withBuffer, withGen_some hg, hr, hw, Bool.false_eq_true, if_false, if_true]

/-- A FILL that passes its three checks writes the drawn bytes. -/
theorem exec_fill_of_ready {s : State} {g : Wide} {base : Addr} {len : Word} (hg : s.genOf s.cur = some g)
    (hr : bufferWraps base len = false) (hw : bufferWritable s.cfg base len.toNat = true) :
    exec (.fill base len) s = respond 0#128 ((s.writeBytes base (drawnBytes s.cfg.m64 g 0 len.toNat)).setGen s.cur
      (afterDraws (ceil8 len.toNat) g)) := by
  rw [exec_fill, execFill, withBuffer_of_ready hg hr hw, ← fillBytes_state s.cfg.m64, ← fillBytes_bytes]

/-- A FILL on a valid port is refused with E_RANGE, has no step, or passes its checks. -/
theorem exec_fill_cases (s : State) (base : Addr) (len : Word) :
    (s.genOf s.cur = none ∧ exec (.fill base len) s = raise .eNoState s) ∨
      ∃ g, s.genOf s.cur = some g ∧
        ((bufferWraps base len = true ∧ exec (.fill base len) s = raise .eRange s) ∨
          (bufferWraps base len = false ∧ bufferWritable s.cfg base len.toNat = false ∧
            exec (.fill base len) s = .fault .bufferNotWritable) ∨
          (bufferWraps base len = false ∧ bufferWritable s.cfg base len.toNat = true)) := by
  rcases withBuffer_cases base len s _ with h | ⟨g, hg, h | h | ⟨hr, hw, -⟩⟩
  · exact .inl h
  · exact .inr ⟨g, hg, .inl h⟩
  · exact .inr ⟨g, hg, .inr (.inl h)⟩
  · exact .inr ⟨g, hg, .inr (.inr ⟨hr, hw⟩)⟩

/-- Every command that answers a next state answers one of these. -/
theorem executed_of_exec {i : Instr} {s t : State} (h : exec i s = .next t) : Executed s i t := by
  cases i with
  | load v =>
    by_cases hv : v = 0#128
    · subst hv
      cases (exec_load_zero s).symm.trans h
      exact .refused _ _ (by decide)
    · cases (exec_load_of_ne_zero hv s).symm.trans h
      exact .constructed _ v (.load v hv)
  | seed v =>
    cases (exec_seed v s).symm.trans h
    exact .constructed _ _ (.seed v)
  | seedu64 n =>
    cases (exec_seedu64 n s).symm.trans h
    exact .constructed _ _ (.seedu64 n)
  | next =>
    cases hg : s.genOf s.cur with
    | none =>
      cases (exec_next_of_none hg).symm.trans h
      exact .refused _ _ (by decide)
    | some g =>
      cases (exec_next_of_some hg).symm.trans h
      exact .drew .next g 1 _ hg .next
  | split =>
    cases hg : s.genOf s.cur with
    | none =>
      cases (exec_split_of_none hg).symm.trans h
      exact .refused _ _ (by decide)
    | some g =>
      cases (exec_split_of_some hg).symm.trans h
      exact .drew .split g 2 _ hg .split
  | fill base len =>
    rcases exec_fill_cases s base len with ⟨-, he⟩ | ⟨g, hg, ⟨-, he⟩ | ⟨-, -, he⟩ | ⟨hr, hw⟩⟩
    · cases he.symm.trans h
      exact .refused _ _ (by decide)
    · cases he.symm.trans h
      exact .refused _ _ (by decide)
    · cases he.symm.trans h
    · cases (exec_fill_of_ready hg hr hw).symm.trans h
      exact .filled base len g hg hr hw
  | get =>
    cases hg : s.genOf s.cur with
    | none =>
      cases (exec_get_of_none hg).symm.trans h
      exact .refused _ _ (by decide)
    | some g =>
      cases (exec_get_of_some hg).symm.trans h
      exact .read g hg

theorem Executed.ownMove {s t : State} {i : Instr} (h : Executed s i t) : OwnMove s t := by
  cases h with
  | refused e => exact .answer s _ _
  | read g => exact .answer s _ _
  | constructed v => exact (OwnMove.setGen s _).trans (.answer _ _ _)
  | drew => exact (OwnMove.setGen s _).trans (.answer _ _ _)
  | filled base len g =>
    exact (OwnMove.withMem s _).trans ((OwnMove.setGen _ _).trans (.answer _ _ _))

/-- No command begins or ends a FILL in progress or a stuck one. -/
theorem Executed.jobs_stuck {s t : State} {i : Instr} (h : Executed s i t) : t.jobs = s.jobs ∧ t.stuck = s.stuck := by
  cases h <;> exact ⟨rfl, rfl⟩

theorem ownMove_of_runJob {p : Nat} {j : FillJob} {s t : State} (h : runJob p j s = .next t) : OwnMove s t := by
  rcases runJob_cases h with ⟨-, rfl⟩ | ⟨g, -, -, rfl⟩ | ⟨g, -, -, rfl⟩
  · exact .dropJob s
  · exact (OwnMove.withMem s _).trans ((OwnMove.setGen _ _).trans ((OwnMove.dropJob _).trans (.answer _ _ _)))
  · exact (OwnMove.withMem s _).trans (.setJob _ _)

theorem TakenMove.ownMove {w : CommandWord} {s t : State} (h : TakenMove w s t) : OwnMove s t := by
  cases h with
  | refused e => exact .answer s _ _
  | executed i _ hd ht => exact (executed_of_exec ht).ownMove
  | began p base len g _ hd hg hr hw ht => exact ownMove_of_runJob ht
  | stuck base len g hd hg hr hw => exact .stick s _

/-- Settles O44: neither an event nor a run of a port writes the configuration. -/
theorem configurationNeverWritten : Obligations.ConfigurationNeverWritten := by
  intro s t h
  cases step_cases h with
  | presented | reset | wrote | idle | stayedStuck => rfl
  | ranJob k p j _ hr hj ht => exact (ownMove_of_runJob ht).cfg
  | ranCommand k w before after _ hr hf hj hc hb ht => exact ht.ownMove.cfg

end Sys2Proof.Machine
end

section
/-! PROOFS. The canonical form of the tables and the non-zero generators (10_state.md R13) along every step. -/

namespace Sys2Proof.Machine

open Sys2Proof.Slice0

/-! ### Canonical tables -/

theorem canonicalInv_runJob {p : Nat} {j : FillJob} {s t : State} (h : runJob p j s = .next t)
    (hs : CanonicalInv s) : CanonicalInv t := by
  obtain ⟨hgens, hjobs, hstuck, hmem⟩ := hs
  have hrun : Memory.wf (jobRun p j s).mem := memWf_fillRun _ _ _ _ _ hmem
  rcases runJob_cases h with ⟨-, rfl⟩ | ⟨g, -, -, rfl⟩ | ⟨g, -, -, rfl⟩
  · exact ⟨hgens, tableWf_eraseKey hjobs, hstuck, hmem⟩
  · exact ⟨tableWf_insertKey hgens, tableWf_eraseKey hjobs, hstuck, hrun⟩
  · exact ⟨hgens, tableWf_insertKey hjobs, hstuck, hrun⟩

theorem canonicalInv_executed {i : Instr} {s t : State} (h : Executed s i t) (hs : CanonicalInv s) :
    CanonicalInv t := by
  obtain ⟨hgens, hjobs, hstuck, hmem⟩ := hs
  cases h with
  | refused | read => exact ⟨hgens, hjobs, hstuck, hmem⟩
  | constructed | drew => exact ⟨tableWf_insertKey hgens, hjobs, hstuck, hmem⟩
  | filled => exact ⟨tableWf_insertKey hgens, hjobs, hstuck, memWf_memWriteBytes hmem _ _⟩

theorem canonicalInv_stick {s : State} (hs : CanonicalInv s) (f : StuckFill) : CanonicalInv (s.stick f) := by
  obtain ⟨hgens, hjobs, hstuck, hmem⟩ := hs
  exact ⟨tableWf_insertKey hgens, hjobs, tableWf_insertKey hstuck, memWf_memForget hmem _ _⟩

theorem canonicalInv_taken {w : CommandWord} {s t : State} (h : TakenMove w s t) (hs : CanonicalInv s) :
    CanonicalInv t := by
  cases h with
  | refused e => exact hs
  | executed i _ hd ht => exact canonicalInv_executed (executed_of_exec ht) hs
  | began p base len g _ hd hg hr hw ht => exact canonicalInv_runJob ht hs
  | stuck base len g hd hg hr hw => exact canonicalInv_stick hs _

/-- Settles O40: every update of a table keeps its canonical form. -/
theorem canonicalKept : Obligations.CanonicalKept := by
  intro s t hs h
  cases step_cases h with
  | presented | idle => exact hs
  | reset k accepted es hi =>
    obtain ⟨hgens, hjobs, hstuck, hmem⟩ := hs
    exact ⟨tableWf_eraseKey hgens, tableWf_eraseKey hjobs, tableWf_eraseKey hstuck, hmem⟩
  | wrote a b es hi hw =>
    obtain ⟨hgens, hjobs, hstuck, hmem⟩ := hs
    exact ⟨hgens, hjobs, hstuck, memWf_memWrite hmem a b⟩
  | stayedStuck k p es f hi hf => exact canonicalInv_stick (s := State.accept _ k s.commands) hs f
  | ranJob k p j _ hr hj ht => exact canonicalInv_runJob ht hs
  | ranCommand k w before after _ hr hf hj hc hb ht => exact canonicalInv_taken ht hs

/-! ### Non-zero generators -/

theorem fillByte_gen_ne_zero {r : FillRun} (h : r.gen ≠ 0#128) (m64 : Word) (base : Addr) (len : Nat) :
    (fillByte m64 base len r).gen ≠ 0#128 := by
  change (fillWord m64 r).1 ≠ 0#128
  unfold fillWord
  split
  · exact nextState_ne_zero h
  · exact h

theorem fillRun_gen_ne_zero {r : FillRun} (h : r.gen ≠ 0#128) (m64 : Word) (base : Addr) (len n : Nat) :
    (fillRun m64 base len n r).gen ≠ 0#128 := by
  induction n generalizing r with
  | zero => exact h
  | succ n ih => exact ih (fillByte_gen_ne_zero h m64 base len)

theorem nonZero_runJob {p : Nat} {j : FillJob} {s t : State} (h : runJob p j s = .next t) (hs : NonZeroInv s)
    (hjobs : NonZeroJobs s) (hj : j.gen ≠ 0#128) : NonZeroInv t ∧ NonZeroJobs t := by
  have hrun : (jobRun p j s).gen ≠ 0#128 := fillRun_gen_ne_zero hj _ _ _ _
  rcases runJob_cases h with ⟨-, rfl⟩ | ⟨g, -, -, rfl⟩ | ⟨g, -, -, rfl⟩
  · exact ⟨hs, forall_mem_eraseKey hjobs⟩
  · exact ⟨forall_mem_insertKey hs hrun, forall_mem_eraseKey hjobs⟩
  · exact ⟨hs, forall_mem_insertKey hjobs hrun⟩

theorem Constructs.ne_zero {c : Config} {i : Instr} {v : Wide} (hc : c.wellFormed = true) (h : Constructs c i v) :
    v ≠ 0#128 := by
  cases h with
  | load _ hv => exact hv
  | seed v => exact zeroFix_ne_zero v
  | seedu64 n => exact fromU64_ne_zero (Config.m128_odd hc) n

theorem NonZeroInv.genOf_ne_zero {s : State} (hs : NonZeroInv s) {k : Nat} {g : Wide} (hg : s.genOf k = some g) :
    g ≠ 0#128 :=
  hs _ (mem_of_lookupKey hg)

theorem nonZero_executed {i : Instr} {s t : State} (h : Executed s i t) (hc : ConfigInv s) (hs : NonZeroInv s) :
    NonZeroInv t := by
  cases h with
  | refused | read => exact hs
  | constructed _ v hi => exact forall_mem_insertKey hs (hi.ne_zero hc)
  | drew _ g n d hg hi => exact forall_mem_insertKey hs (afterDraws_ne_zero (hs.genOf_ne_zero hg) n)
  | filled base len g hg => exact forall_mem_insertKey hs (afterDraws_ne_zero (hs.genOf_ne_zero hg) _)

theorem nonZero_stick {s : State} (hs : NonZeroInv s) (f : StuckFill) : NonZeroInv (s.stick f) :=
  forall_mem_insertKey hs (zeroFix_ne_zero _)

theorem nonZero_taken {w : CommandWord} {s t : State} (h : TakenMove w s t) (hc : ConfigInv s) (hs : NonZeroInv s)
    (hjobs : NonZeroJobs s) : NonZeroInv t ∧ NonZeroJobs t := by
  cases h with
  | refused e => exact ⟨hs, hjobs⟩
  | executed i _ hd ht =>
    have hx := executed_of_exec ht
    refine ⟨nonZero_executed hx hc hs, ?_⟩
    rw [NonZeroJobs, hx.jobs_stuck.1]
    exact hjobs
  | began p base len g _ hd hg hr hw ht => exact nonZero_runJob ht hs hjobs (hs.genOf_ne_zero hg)
  | stuck base len g hd hg hr hw => exact ⟨nonZero_stick hs _, hjobs⟩

/-- Settles O39: a constructor gives no 0, and `T` makes none of a state that is not 0. -/
theorem nonZeroKept : Obligations.NonZeroKept := by
  intro s t hc hs hjobs h
  refine ⟨by rwa [ConfigInv, configurationNeverWritten s t h], ?_⟩
  cases step_cases h with
  | presented | idle | wrote => exact ⟨hs, hjobs⟩
  | reset k accepted es hi => exact ⟨forall_mem_eraseKey hs, forall_mem_eraseKey hjobs⟩
  | stayedStuck k p es f hi hf => exact ⟨nonZero_stick (s := State.accept _ k s.commands) hs f, hjobs⟩
  | ranJob k p j _ hr hj ht => exact nonZero_runJob ht hs hjobs (hjobs _ hj)
  | ranCommand k w before after _ hr hf hj hc' hb ht => exact nonZero_taken ht hc hs hjobs

end Sys2Proof.Machine
end

section
/-! PROOFS. Where a step writes memory (20_memory.md R35 to R37), the fills in progress and the stuck ones along every
step (10_state.md R20), and the flag `VALID` (10_state.md R12). -/

namespace Sys2Proof.Machine

open Sys2Proof.Slice0

/-! ### Memory -/

/-- Memory is as before, or a run of writable addresses was written or left without a known value. -/
inductive MemMove (c : Config) (m : List Host.Cell) : List Host.Cell → Prop where
  | kept : MemMove c m m
  | written (a : Addr) (bs : List Byte) (h : ∀ j < bs.length, c.isWritable (bufferAddr a j) = true) :
      MemMove c m (memWriteBytes a bs m)
  | forgotten (a : Addr) (n : Nat) (h : ∀ j < n, c.isWritable (bufferAddr a j) = true) :
      MemMove c m (memForget a n m)

theorem bufferAddr_bufferAddr (a : Addr) (i j : Nat) : bufferAddr (bufferAddr a i) j = bufferAddr a (i + j) := by
  simp only [bufferAddr, BitVec.ofNat_add, BitVec.add_assoc]

theorem memMove_runJob {p : Nat} {j : FillJob} {s t : State} {g : Wide} (h : runJob p j s = .next t)
    (hj : jobAdmitted s.cfg g j) : MemMove s.cfg s.mem t.mem := by
  have hrun : MemMove s.cfg s.mem (jobRun p j s).mem := by
    obtain ⟨-, -, hmem⟩ := jobRun_of_admitted hj p
    obtain ⟨hi, -, hw, -⟩ := hj
    rw [hmem]
    refine .written _ _ fun k hk => ?_
    rw [length_drawnBytes] at hk
    rw [bufferAddr_bufferAddr]
    exact (bufferWritable_iff _ _ _).mp hw _ (by omega)
  rcases runJob_cases h with ⟨-, rfl⟩ | ⟨g, -, -, rfl⟩ | ⟨g, -, -, rfl⟩
  · exact .kept
  · exact hrun
  · exact hrun

theorem memMove_executed {i : Instr} {s t : State} (h : Executed s i t) : MemMove s.cfg s.mem t.mem := by
  cases h with
  | refused | read | constructed | drew => exact .kept
  | filled base len g hg hr hw =>
    refine .written _ _ fun k hk => (bufferWritable_iff _ _ _).mp hw k ?_
    rwa [length_drawnBytes] at hk

theorem memMove_stick (s : State) (f : StuckFill) : MemMove s.cfg s.mem (s.stick f).mem :=
  .forgotten _ _ fun _ hj => isWritable_of_lt_writableReach _ _ _ hj

/-- A FILL that passes its checks begins as an admitted one. -/
theorem jobAdmitted_begin {c : Config} {base : Addr} {len : Word} (g : Wide) (w : Word)
    (hr : bufferWraps base len = false) (hw : bufferWritable c base len.toNat = true) :
    jobAdmitted c g { base := base, len := len, gen := g, i := 0, w := w } :=
  (jobAdmitted_iff []).mpr ⟨Nat.zero_le _, hr, hw, standsAt_begin _ _ _ _ _⟩

theorem memMove_taken {w : CommandWord} {s t : State} (h : TakenMove w s t) : MemMove s.cfg s.mem t.mem := by
  cases h with
  | refused e => exact .kept
  | executed i _ hd ht => exact memMove_executed (executed_of_exec ht)
  | began p base len g _ hd hg hr hw ht => exact memMove_runJob ht (jobAdmitted_begin g _ hr hw)
  | stuck base len g hd hg hr hw => exact memMove_stick s _

theorem memMove_step {s t : State} (hs : JobsInv s) (h : step s = .next t) : MemMove s.cfg s.mem t.mem := by
  cases step_cases h with
  | presented | reset | idle => exact .kept
  | wrote a b es hi hw =>
    refine .written a [b] fun j hj => ?_
    obtain rfl : j = 0 := by simpa using hj
    rwa [bufferAddr_zero]
  | stayedStuck k p es f hi hf => exact memMove_stick (State.accept _ k s.commands) f
  | ranJob k p j _ hr hj ht =>
    obtain ⟨g, -, hadm⟩ := hs _ hj
    exact (memMove_runJob ht hadm :)
  | ranCommand k w before after _ hr hf hj hc hb ht => exact (memMove_taken ht :)

/-- An address that is not writable is none of those written or left without a value. -/
theorem MemMove.lookupKey_eq {c : Config} {m m' : List Host.Cell} (h : MemMove c m m') {a : Addr}
    (ha : c.isWritable a = false) : lookupKey a.toNat m' = lookupKey a.toNat m := by
  have hne {b : Addr} {j : Nat} (hw : c.isWritable (bufferAddr b j) = true) : a ≠ bufferAddr b j := by
    rintro rfl
    rw [ha] at hw
    cases hw
  cases h with
  | kept => rfl
  | written b bs hw => exact lookupKey_memWriteBytes_outside _ _ _ _ fun j hj => hne (hw j hj)
  | forgotten b n hw => exact (lookupKey_memForget _ _ _ _).2 fun j hj => hne (hw j hj)

/-- Settles O43: a step writes writable addresses only. -/
theorem unwritableBytesNeverChange : Obligations.UnwritableBytesNeverChange :=
  fun _ _ _ hs ha h => (memMove_step hs h).lookupKey_eq ha

theorem mem_memWriteBytes {c : Host.Cell} {a : Addr} {bs : List Byte} {m : List Host.Cell}
    (h : c ∈ memWriteBytes a bs m) : (∃ j < bs.length, c.1 = (bufferAddr a j).toNat) ∨ c ∈ m := by
  induction bs generalizing a m with
  | nil => exact .inr h
  | cons b bs ih =>
    rcases ih h with ⟨j, hj, hc⟩ | hc
    · exact .inl ⟨j + 1, by simpa using hj, by rw [hc, bufferAddr_succ]⟩
    · rcases mem_insertKey hc with rfl | hc
      · exact .inl ⟨0, by simp, by rw [bufferAddr_zero]⟩
      · exact .inr hc

theorem MemMove.writable {c : Config} {m m' : List Host.Cell} (h : MemMove c m m')
    (hm : ∀ d ∈ m, c.isWritable (BitVec.ofNat 64 d.1) = true) :
    ∀ d ∈ m', c.isWritable (BitVec.ofNat 64 d.1) = true := by
  intro d hd
  cases h with
  | kept => exact hm d hd
  | written a bs hw =>
    rcases mem_memWriteBytes hd with ⟨j, hj, hdj⟩ | hd
    · rw [hdj, BitVec.ofNat_toNat, BitVec.setWidth_eq]
      exact hw j hj
    · exact hm d hd
  | forgotten a n hw => exact hm d (mem_of_mem_memForget hd)

theorem writableInv_step {s t : State} (hjobs : JobsInv s) (hs : WritableInv s) (h : step s = .next t) :
    WritableInv t := by
  rw [WritableInv, configurationNeverWritten s t h]
  exact (memMove_step hjobs h).writable hs

/-! ### Fills in progress -/

/-- A port's move keeps the fills in progress admitted if its own are. -/
theorem JobsInv.of_ownMove {s t : State} (hs : JobsInv s) (hm : OwnMove s t)
    (hown : ∀ j, (s.cur, j) ∈ t.jobs → ∃ g, t.genOf s.cur = some g ∧ jobAdmitted s.cfg g j) : JobsInv t := by
  rintro ⟨k, j⟩ hc
  rw [hm.cfg]
  by_cases hk : k = s.cur
  · subst hk
    exact hown j hc
  · rw [hm.genOf_ne hk]
    exact hs (k, j) (hm.mem_jobs_of_ne hc hk)

/-- A port's move keeps the stuck ones as `StuckInv` has them if its own is. -/
theorem StuckInv.of_ownMove {s t : State} (hs : StuckInv s) (hm : OwnMove s t)
    (hown : ∀ f, (s.cur, f) ∈ t.stuck → t.validOf s.cur = true ∧ t.jobOf s.cur = none ∧
      bufferWraps f.base f.len = false ∧ bufferWritable s.cfg f.base f.len.toNat = false) : StuckInv t := by
  rintro ⟨k, f⟩ hc
  rw [hm.cfg]
  by_cases hk : k = s.cur
  · subst hk
    exact hown f hc
  · obtain ⟨hv, hj, hr, hw⟩ := hs (k, f) (hm.mem_stuck_of_ne hc hk)
    exact ⟨hm.validOf_kept hv, by rwa [hm.jobOf_ne hk], hr, hw⟩

/-- An admitted FILL that is let run for less than it takes is still an admitted one. -/
theorem jobAdmitted_jobRun {s : State} {g : Wide} {j : FillJob} (h : jobAdmitted s.cfg g j) (p : Nat) :
    jobAdmitted s.cfg g { j with gen := (jobRun p j s).gen, i := (jobRun p j s).i, w := (jobRun p j s).w } := by
  obtain ⟨hstands, hoffset, -⟩ := jobRun_of_admitted h p
  obtain ⟨hi, hr, hw, -⟩ := h
  refine (jobAdmitted_iff (jobRun p j s).mem).mpr ⟨?_, hr, hw, hstands⟩
  change (jobRun p j s).i ≤ j.len.toNat
  omega

/-- An admitted FILL run on, from a state whose other fills in progress are admitted too. -/
theorem jobsInv_runJob {p : Nat} {j : FillJob} {s t : State} {g : Wide} (h : runJob p j s = .next t) (hs : JobsInv s)
    (hg : s.genOf s.cur = some g) (hj : jobAdmitted s.cfg g j) : JobsInv t := by
  refine hs.of_ownMove (ownMove_of_runJob h) fun j' hj' => ?_
  rcases runJob_cases h with ⟨hnone, -⟩ | ⟨g, -, -, rfl⟩ | ⟨g, -, -, rfl⟩
  · rw [hg] at hnone
    cases hnone
  · exact absurd rfl (mem_eraseKey.mp hj').2
  · rcases mem_insertKey hj' with heq | hold
    · cases heq
      exact ⟨_, hg, jobAdmitted_jobRun hj p⟩
    · exact hs _ hold

/-- The port that runs is not a stuck one. -/
theorem stuckInv_runJob {p : Nat} {j : FillJob} {s t : State} (h : runJob p j s = .next t) (hs : StuckInv s)
    (hfree : ∀ f, (s.cur, f) ∉ s.stuck) : StuckInv t := by
  refine hs.of_ownMove (ownMove_of_runJob h) fun f hf => absurd ?_ (hfree f)
  rcases runJob_cases h with ⟨-, rfl⟩ | ⟨g, -, -, rfl⟩ | ⟨g, -, -, rfl⟩ <;> exact hf

theorem jobsInv_stick {s : State} (hs : JobsInv s) (hj : s.jobOf s.cur = none) (f : StuckFill) :
    JobsInv (s.stick f) :=
  hs.of_ownMove (.stick s f) fun _ hmem => absurd rfl (lookupKey_eq_none_iff.mp hj _ hmem)

theorem stuckInv_stick {s : State} (hs : StuckInv s) (hj : s.jobOf s.cur = none) {f : StuckFill}
    (hr : bufferWraps f.base f.len = false) (hw : bufferWritable s.cfg f.base f.len.toNat = false) :
    StuckInv (s.stick f) := by
  refine hs.of_ownMove (.stick s f) fun f' hf' => ⟨by simp [State.validOf], hj, ?_⟩
  rcases mem_insertKey hf' with heq | hold
  · cases heq
    exact ⟨hr, hw⟩
  · obtain ⟨-, -, h⟩ := hs _ hold
    exact h

/-- A command taken up by a port that is idle. -/
theorem jobsInv_stuckInv_taken {w : CommandWord} {s t : State} (h : TakenMove w s t) (hjobs : JobsInv s)
    (hstuck : StuckInv s) (hj : s.jobOf s.cur = none) (hf : s.stuckOf s.cur = none) : JobsInv t ∧ StuckInv t := by
  have hfree : ∀ f, (s.cur, f) ∉ s.stuck := fun f hmem => lookupKey_eq_none_iff.mp hf _ hmem rfl
  have hidle : ∀ j, (s.cur, j) ∉ s.jobs := fun j hmem => lookupKey_eq_none_iff.mp hj _ hmem rfl
  cases h with
  | refused e => exact ⟨hjobs, hstuck⟩
  | executed i _ hd ht =>
    have hx := executed_of_exec ht
    obtain ⟨hjobs', hstuck'⟩ := hx.jobs_stuck
    refine ⟨hjobs.of_ownMove hx.ownMove fun j hmem => ?_, hstuck.of_ownMove hx.ownMove fun f hmem => ?_⟩
    · rw [hjobs'] at hmem
      exact absurd hmem (hidle j)
    · rw [hstuck'] at hmem
      exact absurd hmem (hfree f)
  | began p base len g _ hd hg hr hw ht =>
    exact ⟨jobsInv_runJob ht hjobs hg (jobAdmitted_begin g _ hr hw), stuckInv_runJob ht hstuck hfree⟩
  | stuck base len g hd hg hr hw => exact ⟨jobsInv_stick hjobs hj _, stuckInv_stick hstuck hj hr hw⟩

theorem jobsInv_stuckInv_reset {s : State} (hjobs : JobsInv s) (hstuck : StuckInv s) (k : Nat) :
    JobsInv (s.resetInstance k) ∧ StuckInv (s.resetInstance k) := by
  constructor
  · intro c hc
    obtain ⟨hmem, hk⟩ := mem_eraseKey.mp hc
    rw [State.genOf_resetInstance, if_neg hk]
    exact hjobs c hmem
  · intro c hc
    obtain ⟨hmem, hk⟩ := mem_eraseKey.mp hc
    rw [State.validOf, State.genOf_resetInstance, State.jobOf_resetInstance, if_neg hk, if_neg hk]
    exact hstuck c hmem

theorem jobsInv_stuckInv_step {s t : State} (hjobs : JobsInv s) (hstuck : StuckInv s) (h : step s = .next t) :
    JobsInv t ∧ StuckInv t := by
  cases step_cases h with
  | presented | idle | wrote => exact ⟨hjobs, hstuck⟩
  | reset k accepted es hi => exact jobsInv_stuckInv_reset hjobs hstuck k
  | stayedStuck k p es f hi hf =>
    obtain ⟨-, hj, hr, hw⟩ := hstuck _ (mem_of_lookupKey hf)
    exact ⟨jobsInv_stick (s := State.accept _ k s.commands) hjobs hj f,
      stuckInv_stick (s := State.accept _ k s.commands) hstuck hj hr hw⟩
  | ranJob k p j _ hr hj ht =>
    obtain ⟨g, hg, hadm⟩ := hjobs _ hj
    refine ⟨jobsInv_runJob ht hjobs hg hadm, stuckInv_runJob ht hstuck fun f hf => ?_⟩
    obtain ⟨-, hnone, -⟩ := hstuck _ hf
    exact lookupKey_eq_none_iff.mp hnone _ hj rfl
  | ranCommand k w before after _ hr hf hj hc hb ht => exact jobsInv_stuckInv_taken ht hjobs hstuck hj hf

/-- Settles O41: a run of byte writes leaves the iterator where its offset asks, only an idle port comes to be stuck,
and only writable addresses are written. -/
theorem fillsInProgressKept : Obligations.FillsInProgressKept := by
  intro s t hjobs hstuck hwritable h
  obtain ⟨hjobs', hstuck'⟩ := jobsInv_stuckInv_step hjobs hstuck h
  exact ⟨hjobs', hstuck', writableInv_step hjobs hwritable h⟩

/-! ### The flag -/

theorem State.validOf_eq_true_of_genOf {s : State} {k : Nat} {g : Wide} (h : s.genOf k = some g) :
    s.validOf k = true := by rw [State.validOf, h, Option.isSome_some]

/-- The FILL of an invalid port has nothing to end with. -/
theorem validOf_of_runJob {p : Nat} {j : FillJob} {s t : State} (h : runJob p j s = .next t) {k : Nat}
    (hk : t.validOf k = true) : s.validOf k = true := by
  rcases runJob_cases h with ⟨-, rfl⟩ | ⟨g, hg, -, rfl⟩ | ⟨g, hg, -, rfl⟩
  · exact hk
  · by_cases hc : k = s.cur
    · rw [hc]
      exact State.validOf_eq_true_of_genOf hg
    · simpa [State.validOf, State.genOf, lookupKey_insertKey, hc] using hk
  · exact hk

/-- Of the commands only a constructor sets `VALID`. -/
theorem constructs_of_executed {i : Instr} {s t : State} (h : Executed s i t) {k : Nat} (hs : s.validOf k ≠ true)
    (ht : t.validOf k = true) : k = s.cur ∧ ∃ v, Constructs s.cfg i v := by
  have hcur : k = s.cur := by
    by_contra hk
    rw [State.validOf, h.ownMove.genOf_ne hk] at ht
    exact hs ht
  subst hcur
  refine ⟨rfl, ?_⟩
  cases h with
  | refused => exact absurd ht hs
  | constructed _ v hi => exact ⟨v, hi⟩
  | read g hg | drew _ g n d hg | filled base len g hg => exact absurd (State.validOf_eq_true_of_genOf hg) hs

theorem constructs_of_taken {w : CommandWord} {s t : State} (h : TakenMove w s t) {k : Nat} (hs : s.validOf k ≠ true)
    (ht : t.validOf k = true) : k = s.cur ∧ ∃ i v, decode w = .ok i ∧ Constructs s.cfg i v := by
  cases h with
  | refused e => exact absurd ht hs
  | executed i _ hd hx =>
    obtain ⟨hk, v, hv⟩ := constructs_of_executed (executed_of_exec hx) hs ht
    exact ⟨hk, i, v, hd, hv⟩
  | began p base len g _ hd hg hr hw hx => exact absurd (validOf_of_runJob hx ht) hs
  | stuck base len g hd hg hr hw =>
    by_cases hk : k = s.cur
    · subst hk
      exact absurd (State.validOf_eq_true_of_genOf hg) hs
    · rw [State.validOf, (OwnMove.stick s _).genOf_ne hk] at ht
      exact absurd ht hs

/-- `VALID` is set by a constructor taken up at that port. -/
theorem validOf_set {s t : State} {k : Nat} (hstuck : StuckInv s) (h : step s = .next t) (hs : s.validOf k ≠ true)
    (ht : t.validOf k = true) : t.cur = k ∧ ∃ before w after i v, s.commands = before ++ (k, w) :: after ∧
      (∀ c ∈ before, c.1 ≠ k) ∧ t.commands = before ++ after ∧ decode w = .ok i ∧ Constructs s.cfg i v := by
  cases step_cases h with
  | presented | idle | wrote => exact absurd ht hs
  | reset k' accepted es hi =>
    change ((State.resetInstance _ k').genOf k).isSome = true at ht
    rw [State.genOf_resetInstance] at ht
    split at ht
    · cases ht
    · exact absurd ht hs
  | stayedStuck k' p es f hi hf =>
    obtain ⟨hvalid, -⟩ := hstuck _ (mem_of_lookupKey hf)
    by_cases hk : k = k'
    · subst hk
      exact absurd hvalid hs
    · rw [State.validOf, (OwnMove.stick _ f).genOf_ne hk] at ht
      exact absurd ht hs
  | ranJob k' p j _ hr hj hx => exact absurd (validOf_of_runJob hx ht) hs
  | ranCommand k' w before after _ hr hf hj hc hb hx =>
    obtain ⟨rfl, i, v, hd, hv⟩ := constructs_of_taken hx hs ht
    exact ⟨hx.ownMove.cur, before, w, after, i, v, hc, hb, hx.ownMove.commands, hd, hv⟩

/-- `VALID` is cleared by that port's reset. -/
theorem validOf_cleared {s t : State} {k : Nat} (h : step s = .next t) (hs : s.validOf k = true)
    (ht : t.validOf k ≠ true) : ∃ accepted es, s.inputs = .reset k accepted :: es := by
  cases step_cases h with
  | presented | idle | wrote => exact absurd hs ht
  | reset k' accepted es hi =>
    change ¬ ((State.resetInstance _ k').genOf k).isSome = true at ht
    rw [State.genOf_resetInstance] at ht
    split at ht
    next hk => exact ⟨accepted, es, hk ▸ hi⟩
    next hk => exact absurd hs ht
  | stayedStuck k' p es f hi hf => exact absurd ((OwnMove.stick (State.accept _ k' s.commands) f).validOf_kept hs) ht
  | ranJob k' p j _ hr hj hx => exact absurd ((ownMove_of_runJob hx).validOf_kept hs) ht
  | ranCommand k' w before after _ hr hf hj hc hb hx => exact absurd (hx.ownMove.validOf_kept hs) ht

/-- Settles O38: by the move the step made. -/
theorem validFlagRule : Obligations.ValidFlagRule := by
  intro s t k hstuck h
  refine ⟨fun hs ht => ?_, fun hs ht => validOf_cleared h hs (Bool.eq_false_iff.mp ht)⟩
  obtain ⟨hcur, before, w, after, i, v, hc, hb, hcommands, hd, hv⟩ :=
    validOf_set hstuck h (Bool.eq_false_iff.mp hs) ht
  refine ⟨hcur, before, w, after, hc, hb, hcommands, ?_⟩
  cases hv with
  | load _ hv => exact .inl ⟨v, hv, hd⟩
  | seed u => exact .inr (.inl ⟨u, hd⟩)
  | seedu64 n => exact .inr (.inr ⟨n, hd⟩)

end Sys2Proof.Machine
end

section
/-! PROOFS. The laws of `FromU64` and of `T` (40_construction.md R75, 41_next.md R92). -/

namespace Sys2Proof.Machine

open Sys2Proof.Slice0

theorem toNat_append_word (h l : Word) : (h ++ l : BitVec 128).toNat = h.toNat * 2 ^ 64 + l.toNat := by
  rw [BitVec.toNat_append, ← Nat.shiftLeft_add_eq_or_of_lt l.isLt, Nat.shiftLeft_eq]

/-- The product of `n ‖ 1` and `m` over 2^64: the low word is that of `m`, the high word gains `n` times it. -/
theorem first_product (n mh ml : Nat) :
    (n * 2 ^ 64 + 1) * (mh * 2 ^ 64 + ml) = (n * mh) * 2 ^ 128 + ((mh + n * ml) * 2 ^ 64 + ml) := by
  ring

theorem halves_of_first_product (m : Wide) (n : Word) :
    lo64 (mul128 (n ++ 1#64) m) = lo64 m ∧ hi64 (mul128 (n ++ 1#64) m) = hi64 m + n * lo64 m := by
  have hm : m.toNat = (hi64 m).toNat * 2 ^ 64 + (lo64 m).toNat := by
    rw [toNat_hi64, toNat_lo64]
    omega
  have hprod : (mul128 (n ++ 1#64) m).toNat =
      (((hi64 m).toNat + n.toNat * (lo64 m).toNat) * 2 ^ 64 + (lo64 m).toNat) % 2 ^ 128 := by
    rw [mul128, BitVec.toNat_mul, toNat_append_word, hm, show (1#64).toNat = 1 from rfl, first_product,
      Nat.mul_add_mod_self_right]
  have hlt := (lo64 m).isLt
  constructor
  · refine BitVec.eq_of_toNat_eq ?_
    rw [toNat_lo64 (mul128 _ _), hprod]
    omega
  · refine BitVec.eq_of_toNat_eq ?_
    rw [toNat_hi64 (mul128 _ _), hprod, BitVec.toNat_add, BitVec.toNat_mul, Nat.add_mod_mod]
    omega

/-- Settles O15: each step of `FromU64` is one-to-one for an odd multiplier, and the first product is worked out over
its halves. -/
theorem expansionLaws : Obligations.ExpansionLaws := fun m hm =>
  ⟨fun n => fromU64_ne_zero hm n, fun _ _ h => fromU64_injective hm h, fun _ _ h => mul128_injective hm h,
    fun _ _ h => bswap128_injective h, halves_of_first_product m⟩

theorem mixLow_xor (a a' : Word) : mixLow (a ^^^ a') = mixLow a ^^^ mixLow a' := by
  rw [mixLow, mixLow, mixLow, BitVec.ushiftRight_xor_distrib]
  ac_rfl

theorem rotateRight_seven_xor (a a' : Word) : (a ^^^ a').rotateRight 7 = a.rotateRight 7 ^^^ a'.rotateRight 7 := by
  apply BitVec.eq_of_getLsbD_eq
  intro i hi
  simp only [BitVec.getLsbD_rotateRight, BitVec.getLsbD_xor, hi]
  by_cases hlow : i < 64 - 7 % 64 <;> simp [hlow]

/-- `T` by the two words of the state, over `L`. -/
theorem nextState_append_mixLow (b a : Word) :
    nextState (b ++ a : BitVec 128) = mixLow a ++ (a.rotateRight 7 ^^^ b) := nextState_append b a

/-- 41_next.md R92 (b). -/
theorem nextState_xor (s s' : Wide) : nextState (s ^^^ s') = nextState s ^^^ nextState s' := by
  rw [← append_of_halves s, ← append_of_halves s', BitVec.xor_append]
  rw [nextState_append_mixLow, nextState_append_mixLow, nextState_append_mixLow, BitVec.xor_append, mixLow_xor,
    rotateRight_seven_xor]
  congr 1
  ac_rfl

/-- 41_next.md R92 (c): the shifts by 19, 38 and 57 come twice and cancel, that by 76 is 0. -/
theorem unmixLow_mixLow (a : Word) : unmixLow (mixLow a) = a := by
  have hlast : a >>> (19 + 57) = 0#64 := BitVec.ushiftRight_eq_zero (by decide)
  simp only [unmixLow, mixLow, BitVec.ushiftRight_xor_distrib, ← BitVec.shiftRight_add, hlast]
  grind

theorem mixLow_unmixLow (d : Word) : mixLow (unmixLow d) = d := by
  have hlast : d >>> (57 + 19) = 0#64 := BitVec.ushiftRight_eq_zero (by decide)
  simp only [unmixLow, mixLow, BitVec.ushiftRight_xor_distrib, ← BitVec.shiftRight_add, hlast]
  grind

theorem unNext_append (d c : Word) :
    unNext (d ++ c : BitVec 128) = (c ^^^ (unmixLow d).rotateRight 7) ++ unmixLow d := by
  obtain ⟨hhi, hlo⟩ := halves_of_append d c
  simp only [unNext, hhi, hlo]

/-- 41_next.md R92 (d). -/
theorem unNext_nextState (s : Wide) : unNext (nextState s) = s := by
  rw [← append_of_halves s, nextState_append_mixLow, unNext_append, unmixLow_mixLow]
  congr 1
  rw [BitVec.xor_comm, ← BitVec.xor_assoc, BitVec.xor_self, BitVec.zero_xor]

theorem nextState_unNext (s : Wide) : nextState (unNext s) = s := by
  rw [← append_of_halves s, unNext_append, nextState_append_mixLow, mixLow_unmixLow]
  congr 1
  rw [BitVec.xor_comm, BitVec.xor_assoc, BitVec.xor_self, BitVec.xor_zero]

/-- Settles O19: `T` is made of two XORs, a rotate and a shift, and each can be undone. -/
theorem nextStateLaws : Obligations.NextStateLaws := by
  refine ⟨nextState_xor, fun a => ⟨unmixLow_mixLow a, mixLow_unmixLow a⟩,
    fun s => ⟨unNext_nextState s, nextState_unNext s⟩, fun s => ⟨fun h => ?_, ?_⟩,
    fun n s hs => afterDraws_ne_zero hs n⟩
  · by_contra hs
    exact nextState_ne_zero hs h
  · rintro rfl
    decide

end Sys2Proof.Machine
end

section
/-! PROOFS. What each command answers (60_exceptions.md R140, 42_split.md R111), what it leaves as it was, and that its
answer depends on its own `S` alone (60_exceptions.md R150). -/

namespace Sys2Proof.Machine

open Sys2Proof.Slice0

/-! ### SPLIT -/

/-- What NEXT changes, as one state after the other sees it (41_next.md R91). -/
theorem exec_next_effect {s : State} {g : Wide} (hg : s.genOf s.cur = some g) : ∃ t, exec .next s = .next t ∧
    t.cur = s.cur ∧ t.cfg = s.cfg ∧ (∀ k, t.genOf k = if k = s.cur then some (nextState g) else s.genOf k) ∧
    t.responses = s.responses ++ [⟨s.cur, .ok, 0#64 ++ nextOut s.cfg.m64 g⟩] :=
  ⟨_, exec_next_of_some hg, rfl, rfl, fun k => State.genOf_setGen s k s.cur _, rfl⟩

/-- For the generators a SPLIT is two NEXTs. -/
theorem exec_split_is_two_nexts {s : State} {g : Wide} (hg : s.genOf s.cur = some g) : ∃ t t1 t2,
    exec .split s = .next t ∧ exec .next s = .next t1 ∧ exec .next t1 = .next t2 ∧ ∀ k, t.genOf k = t2.genOf k := by
  obtain ⟨t1, ht1, hcur, -, hgen, -⟩ := exec_next_effect hg
  have hg1 : t1.genOf t1.cur = some (nextState g) := by rw [hcur, hgen, if_pos rfl]
  obtain ⟨t2, ht2, -, -, hgen2, -⟩ := exec_next_effect hg1
  refine ⟨_, t1, t2, exec_split_of_some hg, ht1, ht2, fun k => ?_⟩
  rw [State.genOf_answer, State.genOf_setGen, hgen2, hgen, hcur]
  by_cases hk : k = s.cur <;> simp only [hk, if_true, if_false]

theorem splitOf_child_ne_zero (m64 : Word) (g : Wide) : (splitOf m64 g).2 ≠ 0#128 := by
  rw [splitOf_eq]
  exact zeroFix_ne_zero _

/-- Settles O21: SPLIT is `SplitOf` behind its one check, and `T` twice is two NEXTs. -/
theorem splitHandsOutAChild : Obligations.SplitHandsOutAChild := by
  refine ⟨decode_split, fun s g hg => ?_, fun s => exec_split_of_none, fun s g => exec_split_is_two_nexts,
    fun s u g hg => ?_⟩
  · rw [exec_split_of_some hg]
    obtain ⟨t, ht, hgen, -, hresp⟩ := respond_setGen_installs (nextState (nextState g)) (splitOf s.cfg.m64 g).2 s
    exact ⟨t, ht, hgen, hresp⟩
  · obtain ⟨t, ht, hgen, -⟩ := construct_installs (splitOf s.cfg.m64 g).2 u
    exact ⟨t, (exec_load_of_ne_zero (splitOf_child_ne_zero _ g) u).trans ht, hgen⟩

/-! ### Stops and responses -/

/-- Every command answers a next state but a FILL that passes its first two checks over memory that is not writable. -/
theorem exec_next_or_stuck (i : Instr) (s : State) : (∃ t, exec i s = .next t) ∨
    ∃ base len g, i = .fill base len ∧ exec i s = .fault .bufferNotWritable ∧ s.genOf s.cur = some g ∧
      bufferWraps base len = false ∧ bufferWritable s.cfg base len.toNat = false := by
  have hgen (rest : Wide → Answer) (h : ∀ g, ∃ t, rest g = .next t) : ∃ t, withGen s rest = .next t := by
    rcases withGen_cases s rest with ⟨-, he⟩ | ⟨g, -, he⟩
    · exact ⟨_, he⟩
    · obtain ⟨t, ht⟩ := h g
      exact ⟨t, he.trans ht⟩
  cases i with
  | load v =>
    by_cases hv : v = 0#128
    · subst hv
      exact .inl ⟨_, exec_load_zero s⟩
    · exact .inl ⟨_, exec_load_of_ne_zero hv s⟩
  | seed v => exact .inl ⟨_, exec_seed v s⟩
  | seedu64 n => exact .inl ⟨_, exec_seedu64 n s⟩
  | next => exact .inl (hgen _ fun g => ⟨_, rfl⟩)
  | split => exact .inl (hgen _ fun g => ⟨_, rfl⟩)
  | get => exact .inl (hgen _ fun g => ⟨_, rfl⟩)
  | fill base len =>
    rcases exec_fill_cases s base len with ⟨-, he⟩ | ⟨g, hg, ⟨-, he⟩ | ⟨hr, hw, he⟩ | ⟨hr, hw⟩⟩
    · exact .inl ⟨_, he⟩
    · exact .inl ⟨_, he⟩
    · exact .inr ⟨base, len, g, rfl, he, hg, hr, hw⟩
    · exact .inl ⟨_, exec_fill_of_ready hg hr hw⟩

/-- Settles O26: the checks of a FILL name the byte that stops it. -/
theorem onlyUnwritableFillStops : Obligations.OnlyUnwritableFillStops := by
  intro i s
  refine (exec_next_or_stuck i s).imp_right fun ⟨base, len, g, hi, he, hg, hr, hw⟩ => ?_
  obtain ⟨j, hj, hbyte⟩ := (bufferWritable_eq_false_iff _ _ _).mp hw
  exact ⟨he, base, len, g, j, hi, hg, (bufferWraps_eq_false_iff base len).mp hr, hj, hbyte⟩

/-- A command that answers a next state leaves one response, at its own port. -/
theorem Executed.response {i : Instr} {s t : State} (h : Executed s i t) :
    ∃ e d, t.responses = s.responses ++ [⟨s.cur, e, d⟩] := by
  cases h <;> exact ⟨_, _, rfl⟩

theorem execWord_response {w : CommandWord} {s t : State} (h : execWord w s = .next t) :
    ∃ e d, t.responses = s.responses ++ [⟨s.cur, e, d⟩] := by
  rcases execWord_cases w s with ⟨_, -, he⟩ | ⟨i, -, he⟩ <;> rw [he] at h
  · cases h
    exact ⟨_, _, rfl⟩
  · exact (executed_of_exec h).response

/-- Settles O35: a response word is read back by its two fields, and a word that is answered is answered once. -/
theorem oneResponsePerCommand : Obligations.OneResponsePerCommand := by
  refine ⟨fun r => ?_, fun w s t h => ?_⟩
  · obtain ⟨hcode, hdata⟩ := Laws.Encoding.fields_of_word r.status.code r.data
    refine ⟨hcode, hdata, ?_⟩
    cases r.status <;> rfl
  · obtain ⟨e, d, hr⟩ := execWord_response h
    exact ⟨_, hr, rfl⟩

/-! ### Frames -/

/-- The bytes a command leaves as they were: all but those of a FILL's buffer. -/
theorem Executed.readByte_eq {i : Instr} {s t : State} (h : Executed s i t) {a : Addr}
    (ha : ∀ base len, i = .fill base len → ∀ j < len.toNat, a ≠ bufferAddr base j) : t.readByte a = s.readByte a := by
  cases h with
  | refused | read | constructed | drew => rfl
  | filled base len g hg hr hw =>
    refine lookupKey_memWriteBytes_outside _ _ _ _ fun j hj => ha base len rfl j ?_
    rwa [length_drawnBytes] at hj

/-- GET only looks at the generators. -/
theorem gens_of_exec_get {s t : State} (h : exec .get s = .next t) : t.gens = s.gens := by
  cases executed_of_exec h with
  | refused | read => rfl
  | constructed _ v hi => cases hi
  | drew _ g n d hg hi => cases hi

/-- Settles O45: a command makes a move of its own port, and writes memory in its buffer only. -/
theorem frameOfEveryCommand : Obligations.FrameOfEveryCommand := by
  intro i s t h
  have hx := executed_of_exec h
  have hm := hx.ownMove
  obtain ⟨hjobs, hstuck⟩ := hx.jobs_stuck
  refine ⟨fun k hk => hm.genOf_ne hk, hjobs, hstuck, hm.commands, hm.inputs, hm.cfg, hm.cur, ?_⟩
  cases i with
  | fill base len =>
    refine fun a ha => hx.readByte_eq fun base' len' heq => ?_
    cases heq
    exact ha
  | get => exact ⟨fun k => by rw [State.genOf, gens_of_exec_get h, State.genOf], fun a => hx.readByte_eq nofun⟩
  | load | seed | seedu64 | next | split => exact fun a => hx.readByte_eq nofun

/-! ### The same `S`, the same answer -/

/-- The answers of one command on ports with the same `S`: next states with equal `S` and equal responses, or equal
stops. -/
inductive SameAnswer (s s' : State) : Answer → Answer → Prop where
  | next (t t' : State) (e : Status) (d : Wide) (hgen : t.genOf s.cur = t'.genOf s'.cur)
      (ht : t.responses = s.responses ++ [⟨s.cur, e, d⟩]) (ht' : t'.responses = s'.responses ++ [⟨s'.cur, e, d⟩]) :
      SameAnswer s s' (.next t) (.next t')
  | fault (r : Fault) : SameAnswer s s' (.fault r) (.fault r)

section
variable {s s' : State}

theorem sameAnswer_raise (h : s.genOf s.cur = s'.genOf s'.cur) (e : Status) :
    SameAnswer s s' (raise e s) (raise e s') :=
  .next _ _ e 0#128 h rfl rfl

/-- With the same new `S` and DATA, whatever else the command did before. -/
theorem sameAnswer_respond {u u' : State} (hcur : u.cur = s.cur) (hcur' : u'.cur = s'.cur)
    (hr : u.responses = s.responses) (hr' : u'.responses = s'.responses) (g d : Wide) :
    SameAnswer s s' (respond d (u.setGen s.cur g)) (respond d (u'.setGen s'.cur g)) := by
  refine .next _ _ .ok d ?_ ?_ ?_
  · simp
  · rw [State.answer_responses, State.setGen_responses, State.setGen_cur, hr, hcur]
  · rw [State.answer_responses, State.setGen_responses, State.setGen_cur, hr', hcur']

theorem sameAnswer_construct (v : Wide) : SameAnswer s s' (construct v s) (construct v s') :=
  sameAnswer_respond rfl rfl rfl rfl v 0#128

theorem sameAnswer_withGen (h : s.genOf s.cur = s'.genOf s'.cur) {rest rest' : Wide → Answer}
    (hrest : ∀ g, SameAnswer s s' (rest g) (rest' g)) : SameAnswer s s' (withGen s rest) (withGen s' rest') := by
  cases hg : s.genOf s.cur with
  | none =>
    rw [withGen_none hg, withGen_none (h.symm.trans hg)]
    exact sameAnswer_raise h _
  | some g =>
    rw [withGen_some hg, withGen_some (h.symm.trans hg)]
    exact hrest g

theorem sameAnswer_exec (i : Instr) (hc : s.cfg = s'.cfg) (h : s.genOf s.cur = s'.genOf s'.cur) :
    SameAnswer s s' (exec i s) (exec i s') := by
  cases i with
  | load v =>
    by_cases hv : v = 0#128
    · subst hv
      rw [exec_load_zero, exec_load_zero]
      exact sameAnswer_raise h _
    · rw [exec_load_of_ne_zero hv, exec_load_of_ne_zero hv]
      exact sameAnswer_construct v
  | seed v => exact sameAnswer_construct _
  | seedu64 n =>
    rw [exec_seedu64, exec_seedu64, hc]
    exact sameAnswer_construct _
  | next =>
    rw [exec_next, exec_next, execNext, execNext, hc]
    exact sameAnswer_withGen h fun g => sameAnswer_respond rfl rfl rfl rfl _ _
  | split =>
    change SameAnswer s s' (execSplit s) (execSplit s')
    rw [execSplit, execSplit, hc]
    exact sameAnswer_withGen h fun g => sameAnswer_respond rfl rfl rfl rfl _ _
  | fill base len =>
    rw [exec_fill, exec_fill, execFill, execFill, withBuffer, withBuffer, hc]
    refine sameAnswer_withGen h fun g => ?_
    split
    · exact sameAnswer_raise h _
    · split
      · exact sameAnswer_respond (s := s) (s' := s') (u := s.writeBytes base _) (u' := s'.writeBytes base _)
          rfl rfl rfl rfl _ _
      · exact .fault _
  | get =>
    rw [exec_get, exec_get]
    exact sameAnswer_withGen h fun g => SameAnswer.next _ _ .ok g h rfl rfl

end

/-- Settles O50: each command looks at `S` and the configuration only. -/
theorem sameStateSameAnswer : Obligations.SameStateSameAnswer := by
  intro i s s' hc h
  have hsame := sameAnswer_exec i hc h
  generalize exec i s = a at hsame
  generalize exec i s' = a' at hsame
  cases hsame with
  | next t t' e d hgen ht ht' => exact ⟨hgen, e, d, ht, ht'⟩
  | fault r => rfl

/-- The answers of one list of commands on two ports: next states with equal `S` and responses that look the same to
the host, or equal stops. -/
inductive SameAnswers (s s' : State) (k k' : Nat) : Answer → Answer → Prop where
  | next (t t' : State) (rs rs' : List Response) (hgen : t.genOf k = t'.genOf k')
      (ht : t.responses = s.responses ++ rs) (ht' : t'.responses = s'.responses ++ rs') (hseen : seen rs = seen rs') :
      SameAnswers s s' k k' (.next t) (.next t')
  | fault (r : Fault) : SameAnswers s s' k k' (.fault r) (.fault r)

theorem sameAnswers_execAll (is : List Instr) {s s' : State} {k k' : Nat} (hc : s.cfg = s'.cfg)
    (h : s.genOf k = s'.genOf k') : SameAnswers s s' k k' (execAll k is s) (execAll k' is s') := by
  induction is generalizing s s' with
  | nil => exact .next s s' [] [] h (by simp) (by simp) rfl
  | cons i is ih =>
    have hcfg {u : State} {j : Nat} {t : State} (ht : execAt j i u = .next t) : t.cfg = u.cfg :=
      (executed_of_exec ht).ownMove.cfg
    have hsame : SameAnswer { s with cur := k } { s' with cur := k' } (execAt k i s) (execAt k' i s') :=
      sameAnswer_exec i hc h
    rw [execAll, execAll]
    generalize ha : execAt k i s = a at hsame
    generalize ha' : execAt k' i s' = a' at hsame
    cases hsame with
    | fault r => exact .fault r
    | next t t' e d hgen ht ht' =>
      have hc' : t.cfg = t'.cfg := (hcfg ha).trans (hc.trans (hcfg ha').symm)
      have hrest := ih hc' hgen
      change SameAnswers s s' k k' (execAll k is t) (execAll k' is t')
      generalize execAll k is t = b at hrest
      generalize execAll k' is t' = b' at hrest
      cases hrest with
      | fault r => exact .fault r
      | next v v' rs rs' hgen' hv hv' hseen =>
        refine .next v v' (⟨k, e, d⟩ :: rs) (⟨k', e, d⟩ :: rs') hgen' ?_ ?_ (congrArg ((e, d) :: ·) hseen)
        · rw [hv, ht, List.append_assoc]
          rfl
        · rw [hv', ht', List.append_assoc]
          rfl

/-- Settles O51: command by command, each leaving equal `S` for the next. -/
theorem copiesStayEqual : Obligations.CopiesStayEqual := by
  intro is s s' k k' hc h
  have hsame := sameAnswers_execAll is hc h
  generalize execAll k is s = a at hsame
  generalize execAll k' is s' = a' at hsame
  cases hsame with
  | next t t' rs rs' hgen ht ht' hseen => exact ⟨hgen, rs, rs', ht, ht', hseen⟩
  | fault r => rfl

end Sys2Proof.Machine
end

section
/-! PROOFS. The pseudo-commands (30_encoding.md R62; 60_exceptions.md R151). -/

namespace Sys2Proof.Machine

open Sys2Proof.Slice0

theorem lastData_answer (s : State) (e : Status) (d : Wide) : lastData (s.answer e d) = d := by simp [lastData]

/-- The second half of CLONE and SPLITTO: the DATA of the response just left, not 0, is loaded at `dst`. -/
theorem load_lastData {d : Wide} (hd : d ≠ 0#128) (u : State) (e : Status) (dst : Nat) :
    afterAnswer (.next (u.answer e d)) (fun t => execAt dst (.load (lastData t)) t)
      = construct d { u.answer e d with cur := dst } := by
  change exec (.load (lastData (u.answer e d))) _ = _
  rw [lastData_answer, exec_load_of_ne_zero hd]

/-- What that leaves: `d` at `dst`, every other generator as it was, and one more response of `dst`. -/
theorem construct_at (d : Wide) (u : State) (e : Status) (dst : Nat) :
    ∃ t, construct d { u.answer e d with cur := dst } = .next t ∧ t.genOf dst = some d ∧
      (∀ k, k ≠ dst → t.genOf k = u.genOf k) ∧
      t.responses = u.responses ++ [⟨u.cur, e, d⟩, ⟨dst, .ok, 0#128⟩] := by
  refine ⟨_, rfl, ?_, fun k hk => ?_, ?_⟩
  · rw [State.genOf_answer, State.genOf_setGen, if_pos rfl]
  · rw [State.genOf_answer, State.genOf_setGen, if_neg hk]
    rfl
  · rw [State.answer_responses, State.setGen_responses, State.answer_responses, List.append_assoc]
    rfl

/-- Settles O52: GET answers `g`, which is not 0, and LOAD takes it. -/
theorem cloneCopies : Obligations.CloneCopies := by
  intro s dst src g hs hg
  have hget : execAt src .get s = .next (({ s with cur := src } : State).answer .ok g) := exec_get_of_some hg
  obtain ⟨t, ht, hdst, hother, hresp⟩ := construct_at g { s with cur := src } .ok dst
  refine ⟨t, ?_, hdst, ?_, hresp⟩
  · rw [execClone, hget, load_lastData (hs.genOf_ne_zero hg), ht]
  · by_cases hk : src = dst
    · rw [hk, hdst]
    · rw [hother src hk]
      exact hg

/-- Settles O53: SPLIT answers the child, which is not 0, and LOAD takes it. -/
theorem splitToHandsOver : Obligations.SplitToHandsOver := by
  intro s dst src g hg
  have hsplit : execAt src .split s = .next ((({ s with cur := src } : State).setGen src
      (nextState (nextState g))).answer .ok (splitOf s.cfg.m64 g).2) :=
    exec_split_of_some (s := { s with cur := src }) hg
  obtain ⟨t, ht, hdst, hother, hresp⟩ := construct_at (splitOf s.cfg.m64 g).2
    (({ s with cur := src } : State).setGen src (nextState (nextState g))) .ok dst
  refine ⟨t, ?_, hdst, fun hk => ?_, hresp⟩
  · rw [execSplitTo, hsplit, load_lastData (splitOf_child_ne_zero _ g), ht]
  · rw [hother src hk.symm, State.genOf_setGen, if_pos rfl]

/-- The operand of SEEDB has seed byte `j` as its byte `j`. -/
theorem byteOf_seedOperand {bytes : List Nat} (hl : bytes.length = 16) (hb : ∀ b ∈ bytes, b < 256) {j : Nat}
    (hj : j < 16) : bytes[j]? = some (byteOf (seedOperand bytes) j).toNat := by
  have hj' : j < bytes.length := by omega
  rw [seedOperand, byteOf_le128 _ (by rw [List.length_map, hl]) j (by rwa [List.length_map]), List.getElem_map,
    BitVec.toNat_ofNat, Nat.mod_eq_of_lt (hb _ (List.getElem_mem hj')), List.getElem?_eq_getElem hj']

theorem execLine_of_unfit {l : Line} {k : Nat} {s : State} (h : l.wellFormed = false) : execLine k l s = none := by
  unfold execLine
  rw [h]
  rfl

/-- Settles O54: `execLine` issues a line that fits as its expansion, and no other. -/
theorem pseudoCommandLines : Obligations.PseudoCommandLines := by
  refine ⟨fun bytes k s hfit => ⟨seedOperand bytes, by rw [execLine, if_pos hfit], fun j hj => ?_⟩, fun k s => rfl,
    fun k n s => rfl, fun l k s => execLine_of_unfit⟩
  have hbytes : bytes.length = 16 ∧ ∀ b ∈ bytes, b < 256 := by simpa [Line.wellFormed] using hfit
  rw [byteOf_seedOperand hbytes.1 hbytes.2 hj, byteOf_eq_slice8, slice8]

end Sys2Proof.Machine
end

section
/-! PROOFS. The iterators of the bulk fill as functions of the state and the length (43_fill.md R122, R123, R125). -/

namespace Sys2Proof.Machine

open Sys2Proof.Slice0

/-- The tail loop takes the low bytes of the word in order. -/
theorem getElem?_tailBytes {k j : Nat} (w : Word) (h : j < k) : (tailBytes k w)[j]? = some (byteOf w j) := by
  induction k generalizing w j with
  | zero => omega
  | succ k ih =>
    cases j with
    | zero => rfl
    | succ j =>
      rw [tailBytes, List.getElem?_cons_succ, ih _ (Nat.lt_of_succ_lt_succ h), byteOf, byteOf, shr64,
        ← BitVec.shiftRight_add, Nat.mul_add, Nat.add_comm]

theorem length_tailBytes (k : Nat) (w : Word) : (tailBytes k w).length = k := by
  induction k generalizing w with
  | zero => rfl
  | succ k ih => rw [tailBytes, List.length_cons, ih]

theorem tailBytes_eq_take {k : Nat} (hk : k < 8) (w : Word) : tailBytes k w = (leBytes64 w).take k := by
  refine List.ext_getElem? fun j => ?_
  by_cases hj : j < k
  · rw [getElem?_tailBytes w hj, List.getElem?_take_of_lt hj, getElem?_leBytes64 w j (by omega)]
  · rw [List.getElem?_eq_none (by rw [length_tailBytes]; omega),
      List.getElem?_eq_none (by rw [List.length_take]; omega)]

theorem fillBytes_zero (m64 : Word) (s : Wide) : fillBytes m64 s 0 = (s, []) := rfl

/-- The tail is a fill of fewer than eight bytes. -/
theorem fillTail_eq_fillBytes {k : Nat} (hk : k < 8) (m64 : Word) (s : Wide) :
    fillTail m64 s k = fillBytes m64 s k := by
  unfold fillTail
  split
  next h0 => rw [h0, fillBytes_zero]
  next h0 =>
    have hcount : drawCount k = 1 := by unfold drawCount; omega
    simp [fillBytes, hcount, draws, nextPair, tailBytes_eq_take hk]

/-- Beats of eight bytes: each pass is one draw in front (43_fill.md R122). -/
theorem fillBeats8_eq_fillBytes {k : Nat} (hk : k < 8) (m64 : Word) (n : Nat) (s : Wide) :
    fillBeats8 m64 n s k = fillBytes m64 s (8 * n + k) := by
  induction n generalizing s with
  | zero => rw [fillBeats8, fillTail_eq_fillBytes hk, Nat.mul_zero, Nat.zero_add]
  | succ n ih =>
    rw [show 8 * (n + 1) + k = 8 * n + k + 8 by omega, fillBytes_eight_more, ← ih]
    rfl

/-- Beats of sixteen bytes: each pass is two draws in front (43_fill.md R125). -/
theorem fillBeats16_eq_fillBytes {k : Nat} (hk : k < 16) (m64 : Word) (n : Nat) (s : Wide) :
    fillBeats16 m64 n s k = fillBytes m64 s (16 * n + k) := by
  induction n generalizing s with
  | zero =>
    rw [fillBeats16, Nat.mul_zero, Nat.zero_add]
    split
    · rw [fillBeats8_eq_fillBytes (by omega), show 8 * 1 + (k - 8) = k by omega]
    · exact fillTail_eq_fillBytes (by omega) m64 s
  | succ n ih =>
    rw [show 16 * (n + 1) + k = 16 * n + k + 8 + 8 by omega, fillBytes_eight_more, fillBytes_eight_more, ← ih,
      ← List.append_assoc]
    rfl

/-- Settles O27: by the passes, each of one draw or two in front of a shorter fill. -/
theorem fillIteratorsAgree : Obligations.FillIteratorsAgree := by
  intro m64 s L
  constructor
  · rw [fillIter8, fillBeats8_eq_fillBytes (Nat.mod_lt _ (by decide)), Nat.div_add_mod]
  · rw [fillIter16, fillBeats16_eq_fillBytes (Nat.mod_lt _ (by decide)), Nat.div_add_mod]

/-- Whole draws first, then a fill from the state they leave. -/
theorem fillBytes_append (m64 : Word) (n : Nat) (s : Wide) (L : Nat) : fillBytes m64 s (8 * n + L) =
    ((fillBytes m64 (fillBytes m64 s (8 * n)).1 L).1,
      (fillBytes m64 s (8 * n)).2 ++ (fillBytes m64 (fillBytes m64 s (8 * n)).1 L).2) := by
  induction n generalizing s with
  | zero => rw [Nat.mul_zero, Nat.zero_add, fillBytes_zero, List.nil_append]
  | succ n ih =>
    rw [show 8 * (n + 1) + L = 8 * n + L + 8 by omega, fillBytes_eight_more, ih, Nat.mul_succ, fillBytes_eight_more,
      List.append_assoc]

/-- Settles O32: the first length is a number of whole draws. -/
theorem fillsJoinAtWholeDraws : Obligations.FillsJoinAtWholeDraws := by
  intro m64 s L1 L2 h
  rw [← Nat.mul_div_cancel' (Nat.dvd_of_mod_eq_zero h)]
  exact fillBytes_append m64 (L1 / 8) s L2

/-- Settles O30: the bytes are written one after the other at distinct addresses. -/
theorem consecutiveWritesAreReadBack : Obligations.ConsecutiveWritesAreReadBack := by
  intro s a n v hn
  have hl : ((leBytes64 v).take n).length = n := by
    rw [List.length_take, length_leBytes64]
    omega
  refine ⟨fun k hk => ?_, fun c hc => ?_⟩
  · have hbyte : ((leBytes64 v).take n)[k]? = some (byteOf v k) := by
      rw [List.getElem?_take_of_lt hk, getElem?_leBytes64 v k (by omega)]
    have hread := lookupKey_memWriteBytes_inside a ((leBytes64 v).take n) s.mem (by omega) (j := k) (by omega)
    rw [← List.getElem?_eq_getElem, hbyte, byteOf_eq_slice8] at hread
    exact hread
  · exact lookupKey_memWriteBytes_outside c a _ s.mem fun j hj => hc j (by omega)

end Sys2Proof.Machine
end

section
/-! PROOFS. FILL as a command, paused and run on (43_fill.md R121 to R123; 20_memory.md R37; 10_state.md R20). -/

namespace Sys2Proof.Machine

open Sys2Proof.Slice0

/-! ### The drawn bytes in memory -/

theorem lookupKey_drawnBytes_inside {m64 : Word} {g : Wide} {base : Addr} {i n b : Nat} (m : List Host.Cell)
    (hn : n ≤ 2 ^ 64) (hi : i ≤ b) (hb : b < i + n) :
    lookupKey (bufferAddr base b).toNat (memWriteBytes (bufferAddr base i) (drawnBytes m64 g i n) m)
      = some (drawnByte m64 g b) := by
  obtain ⟨k, rfl⟩ := Nat.exists_eq_add_of_le hi
  have hk : k < (drawnBytes m64 g i n).length := by
    rw [length_drawnBytes]
    omega
  rw [← bufferAddr_bufferAddr, lookupKey_memWriteBytes_inside _ _ _ (by rwa [length_drawnBytes]) hk,
    getElem_drawnBytes]

theorem lookupKey_drawnBytes_outside {m64 : Word} {g : Wide} {base a : Addr} {i n : Nat} (m : List Host.Cell)
    (h : ∀ b, i ≤ b → b < i + n → a ≠ bufferAddr base b) :
    lookupKey a.toNat (memWriteBytes (bufferAddr base i) (drawnBytes m64 g i n) m) = lookupKey a.toNat m := by
  refine lookupKey_memWriteBytes_outside _ _ _ _ fun j hj => ?_
  rw [length_drawnBytes] at hj
  rw [bufferAddr_bufferAddr]
  exact h (i + j) (by omega) (by omega)

/-- Below the buffer and at or above its end is no address of it. -/
theorem ne_bufferAddr_of_outside {base a : Addr} {n b : Nat} (hr : base.toNat + n ≤ 2 ^ 64)
    (ha : a.toNat < base.toNat ∨ base.toNat + n ≤ a.toNat) (hb : b < n) : a ≠ bufferAddr base b := by
  rintro rfl
  have hlt := base.isLt
  rw [bufferAddr, BitVec.toNat_add, BitVec.toNat_ofNat] at ha
  omega

/-- The premises of a FILL that may complete are its three checks. -/
theorem fillReady_iff {s : State} {g : Wide} {base : Addr} {len : Word} : fillReady s g base len ↔
    s.genOf s.cur = some g ∧ bufferWraps base len = false ∧ bufferWritable s.cfg base len.toNat = true :=
  and_congr_right' (and_congr (bufferWraps_eq_false_iff base len).symm (bufferWritable_iff _ _ _).symm)

/-- Settles O23: behind its checks FILL writes the drawn bytes one after the other. -/
theorem fillWritesTheBuffer : Obligations.FillWritesTheBuffer := by
  refine ⟨decode_fill_append, fun s g base len h => ?_⟩
  obtain ⟨hg, hr, hw⟩ := fillReady_iff.mp h
  have hlen := len.isLt
  have hmem : ((s.writeBytes base (drawnBytes s.cfg.m64 g 0 len.toNat)).setGen s.cur
      (afterDraws (ceil8 len.toNat) g)).mem = memWriteBytes (bufferAddr base 0) (drawnBytes s.cfg.m64 g 0 len.toNat)
        s.mem := by
    rw [bufferAddr_zero]
    rfl
  refine ⟨_, exec_fill_of_ready hg hr hw, ?_, rfl, fun j hj => ?_, fun a ha => ?_⟩
  · rw [State.genOf_answer, State.genOf_setGen, if_pos rfl]
  · rw [State.readByte, State.answer_mem, hmem]
    exact lookupKey_drawnBytes_inside s.mem (by omega) (Nat.zero_le j) (by omega)
  · rw [State.readByte, State.answer_mem, hmem]
    refine lookupKey_drawnBytes_outside s.mem fun b _ hb => ?_
    exact ne_bufferAddr_of_outside ((bufferWraps_eq_false_iff base len).mp hr) ha (by omega)

/-! ### A FILL and the NEXTs it stands for -/

/-- The responses of `n` NEXTs at port `k` from `S = g`. -/
def nextResponses (m64 : Word) (k : Nat) (g : Wide) (n : Nat) : List Response :=
  (List.range n).map fun i => ⟨k, .ok, 0#64 ++ drawAt m64 g i⟩

theorem nextResponses_succ (m64 : Word) (k : Nat) (g : Wide) (n : Nat) : nextResponses m64 k g (n + 1) =
    ⟨k, .ok, 0#64 ++ nextOut m64 g⟩ :: nextResponses m64 k (nextState g) n := by
  rw [nextResponses, List.range_succ_eq_map, List.map_cons, List.map_map]
  rfl

theorem execNextN_effect {s : State} {k : Nat} {g : Wide} (n : Nat) (hg : s.genOf k = some g) : ∃ u,
    execNextN k n s = .next u ∧ u.genOf k = some (afterDraws n g) ∧
      u.responses = s.responses ++ nextResponses s.cfg.m64 k g n := by
  induction n generalizing s g with
  | zero => exact ⟨s, rfl, hg, (List.append_nil _).symm⟩
  | succ n ih =>
    obtain ⟨t, ht, -, hcfg, hgen, hresp⟩ := exec_next_effect (s := { s with cur := k }) hg
    have hgen : t.genOf k = some (nextState g) := by rw [hgen, if_pos rfl]
    obtain ⟨u, hu, hgen', hresp'⟩ := ih hgen
    refine ⟨u, ?_, hgen', ?_⟩
    · change afterAnswer (exec .next { s with cur := k }) (execNextN k n) = _
      rw [ht]
      exact hu
    · rw [hresp', hresp, hcfg, nextResponses_succ, List.append_assoc]
      rfl

/-- A byte of the draw in a NEXT's DATA. -/
theorem extractLsb'_of_draw (x : Word) {i : Nat} (hi : i < 8) :
    (0#64 ++ x : BitVec 128).extractLsb' (8 * i) 8 = (x >>> (8 * i)).setWidth 8 :=
  (byteOf_eq_slice8 (0#64 ++ x : BitVec 128) i).symm.trans (byteOf_append_low 0#64 x hi)

/-- Settles O31: draw `j / 8` is the DATA of that NEXT, and holds byte `j` of the FILL. -/
theorem fillEqualsNexts : Obligations.FillEqualsNexts := by
  intro s g base len h
  obtain ⟨t, ht, hgen, -, hbytes, -⟩ := fillWritesTheBuffer.2 s g base len h
  obtain ⟨u, hu, hgen', hresp⟩ := execNextN_effect (ceil8 len.toNat) h.1
  refine ⟨t, u, _, ht, hu, hgen.trans hgen'.symm, hresp, by simp [nextResponses], fun j hj => ?_⟩
  have hdraw : j / 8 < ceil8 len.toNat := by
    have := (ceil8_bounds len.toNat).1
    omega
  rw [hbytes j hj, nextResponses, List.getElem?_map, List.getElem?_range hdraw]
  exact congrArg some (extractLsb'_of_draw _ (Nat.mod_lt j (by decide))).symm

/-! ### Pauses -/

/-- A FILL that is let run for more moves than its byte writes to come ends. -/
theorem runJob_of_lt {s : State} {g : Wide} {j : FillJob} {p : Nat} (hg : s.genOf s.cur = some g)
    (hp : j.len.toNat - j.i < p) : runJob p j s = respond 0#128
      ((({ s with mem := (jobRun p j s).mem } : State).setGen s.cur (jobRun p j s).gen).dropJob s.cur) := by
  simp only [runJob, hg, if_pos hp, jobRun]

/-- With no more moves than that it stands further on, its response still to come. -/
theorem runJob_of_le {s : State} {g : Wide} {j : FillJob} {p : Nat} (hg : s.genOf s.cur = some g)
    (hp : p ≤ j.len.toNat - j.i) : runJob p j s = .next (({ s with mem := (jobRun p j s).mem } : State).setJob s.cur
      { j with gen := (jobRun p j s).gen, i := (jobRun p j s).i, w := (jobRun p j s).w }) := by
  simp only [runJob, hg, if_neg (Nat.not_lt.mpr hp), jobRun]

/-- What the iterator of an admitted FILL has made once every byte is written. -/
theorem jobRun_of_lt {s : State} {g : Wide} {j : FillJob} {p : Nat} (h : jobAdmitted s.cfg g j)
    (hp : j.len.toNat - j.i < p) : (jobRun p j s).gen = afterDraws (ceil8 j.len.toNat) g ∧
      (jobRun p j s).mem = memWriteBytes (bufferAddr j.base j.i)
        (drawnBytes s.cfg.m64 g j.i (j.len.toNat - j.i)) s.mem := by
  obtain ⟨hstands, hoffset, hmem⟩ := jobRun_of_admitted h p
  have hi : j.i ≤ j.len.toNat := h.1
  have hmin : min p (j.len.toNat - j.i) = j.len.toNat - j.i := by omega
  have hend : (jobRun p j s).i = j.len.toNat := by omega
  rw [hmin] at hmem
  refine ⟨?_, hmem⟩
  rw [hstands.gen, hend, drawCount_eq_ceil8]

/-- The FILL in progress as a command that has passed its checks begins it. -/
def begunFill (s : State) (g : Wide) (base : Addr) (len : Word) : FillJob :=
  { base := base, len := len, gen := g, i := 0, w := Config.freeShift s.fresh }

theorem jobAdmitted_begunFill {s : State} {base : Addr} {len : Word} (g : Wide) (hr : bufferWraps base len = false)
    (hw : bufferWritable s.cfg base len.toNat = true) : jobAdmitted s.cfg g (begunFill s g base len) :=
  jobAdmitted_begin g _ hr hw

theorem startFill_of_ready {s : State} {g : Wide} {base : Addr} {len : Word} (p : Nat) (hg : s.genOf s.cur = some g)
    (hr : bufferWraps base len = false) (hw : bufferWritable s.cfg base len.toNat = true) :
    startFill p base len s = runJob p (begunFill s g base len) s :=
  withBuffer_of_ready hg hr hw

/-- Without a pause the iterator does what the command does (43_fill.md R121, R122). -/
theorem startFill_eq_exec {s : State} {base : Addr} {len : Word} {p : Nat} (hidle : s.jobOf s.cur = none)
    (hp : len.toNat < p) : startFill p base len s = exec (.fill base len) s := by
  rcases withBuffer_cases base len s _ with ⟨hg, he⟩ | ⟨g, hg, ⟨hr, he⟩ | ⟨hr, hw, he⟩ | ⟨hr, hw, -⟩⟩
  · exact he.trans (exec_fill_of_none hg base len).symm
  · exact he.trans (exec_fill_of_wraps hg hr).symm
  · exact he.trans (withBuffer_of_not_writable _ hg hr hw).symm
  · have hp' : (begunFill s g base len).len.toNat - (begunFill s g base len).i < p := hp
    obtain ⟨hgen, hmem⟩ := jobRun_of_lt (jobAdmitted_begunFill g hr hw) hp'
    rw [startFill_of_ready p hg hr hw, runJob_of_lt hg hp', exec_fill_of_ready hg hr hw, hgen, hmem]
    change respond 0#128 (State.dropJob (State.setGen { s with mem := memWriteBytes (bufferAddr base 0) _ s.mem } _ _)
      _) = _
    rw [bufferAddr_zero]
    refine congrArg (respond 0#128) ?_
    rw [State.dropJob, State.setGen_jobs, show eraseKey s.cur s.jobs = s.jobs from eraseKey_of_lookupKey_none hidle]
    rfl

/-- The FILL `j` of `s.cur` with `p` byte writes more done. -/
def pausedJob (p : Nat) (j : FillJob) (s : State) : FillJob :=
  { j with gen := (jobRun p j s).gen, i := (jobRun p j s).i, w := (jobRun p j s).w }

/-- The state in which that FILL waits to be let run again. -/
def pausedState (p : Nat) (j : FillJob) (s : State) : State :=
  ({ s with mem := (jobRun p j s).mem } : State).setJob s.cur (pausedJob p j s)

theorem runJob_eq_paused {s : State} {g : Wide} {j : FillJob} {p : Nat} (hg : s.genOf s.cur = some g)
    (hp : p ≤ j.len.toNat - j.i) : runJob p j s = .next (pausedState p j s) := runJob_of_le hg hp

theorem pausedJob_len (p : Nat) (j : FillJob) (s : State) : (pausedJob p j s).len = j.len := rfl

theorem pausedJob_i {s : State} {j : FillJob} {p : Nat} (hp : p ≤ j.len.toNat - j.i) :
    (pausedJob p j s).i = j.i + p := by
  rw [pausedJob, jobRun, fillRun_offset, Nat.min_eq_left hp]

/-- The iterator let run for `p` byte writes and then for `q` moves. -/
theorem jobRun_paused {s : State} {j : FillJob} {p : Nat} (hp : p ≤ j.len.toNat - j.i) (q : Nat) :
    jobRun q (pausedJob p j s) (pausedState p j s) = jobRun (p + q) j s := by
  change fillRun s.cfg.m64 j.base j.len.toNat (min q (j.len.toNat - (pausedJob p j s).i)) (jobRun p j s) = _
  rw [jobRun, jobRun, ← fillRun_add, pausedJob_i hp]
  congr 1
  omega

/-- Two runs in a row are one: the FILL in progress is replaced by the one further on. -/
theorem runJob_paused {s : State} {g : Wide} {j : FillJob} {p : Nat} (hg : s.genOf s.cur = some g)
    (hp : p ≤ j.len.toNat - j.i) (q : Nat) :
    runJob q (pausedJob p j s) (pausedState p j s) = runJob (p + q) j s := by
  have hg' : (pausedState p j s).genOf (pausedState p j s).cur = some g := hg
  have hleft : (pausedJob p j s).len.toNat - (pausedJob p j s).i = j.len.toNat - j.i - p := by
    rw [pausedJob_i hp, pausedJob_len]
    omega
  by_cases hq : j.len.toNat - j.i < p + q
  · rw [runJob_of_lt hg hq, runJob_of_lt hg' (by omega), jobRun_paused hp]
    simp only [pausedState, State.setJob, State.setGen, State.dropJob, eraseKey_insertKey]
  · rw [runJob_of_le hg (by omega), runJob_of_le hg' (by omega), jobRun_paused hp]
    simp only [pausedState, State.setJob, insertKey_insertKey, pausedJob]

/-- Settles O28: the iterator's runs add up. -/
theorem pausesDoNotChangeAFill : Obligations.PausesDoNotChangeAFill := by
  refine ⟨fun s base len p => startFill_eq_exec, fun s g j p q hg hp => ?_⟩
  have hp : p ≤ j.len.toNat - j.i := by omega
  refine ⟨pausedState p j s, pausedJob p j s, runJob_eq_paused hg hp, rfl, hg, rfl, ?_, rfl, rfl, pausedJob_i hp,
    runJob_paused hg hp q⟩
  rw [pausedState, State.jobOf_setJob, if_pos rfl]

/-- Settles O9: a word that is no FILL is executed whole, and a FILL with moves enough is not paused. -/
theorem onlyFillsCanPause : Obligations.OnlyFillsCanPause := by
  intro p w s hidle hshort
  rcases startWord_cases p w s with he | ⟨base, len, hd, he⟩
  · exact he
  · rw [he, startFill_eq_exec hidle (hshort base len hd), execWord, hd]

/-- A FILL that may complete, let run for `p` of its byte writes: where its iterator stands, and memory. -/
theorem begunFill_run {s : State} {g : Wide} {base : Addr} {len : Word} {p : Nat} (h : fillReady s g base len)
    (hp : p ≤ len.toNat) : startFill p base len s = .next (pausedState p (begunFill s g base len) s) ∧
      (pausedJob p (begunFill s g base len) s).i = p ∧
      (jobRun p (begunFill s g base len) s).StandsAt s.cfg.m64 g len.toNat ∧
      (pausedState p (begunFill s g base len) s).mem =
        memWriteBytes (bufferAddr base 0) (drawnBytes s.cfg.m64 g 0 p) s.mem := by
  obtain ⟨hg, hr, hw⟩ := fillReady_iff.mp h
  have hp' : p ≤ (begunFill s g base len).len.toNat - (begunFill s g base len).i := hp
  obtain ⟨hstands, -, hmem⟩ := jobRun_of_admitted (jobAdmitted_begunFill g hr hw) p
  rw [Nat.min_eq_left hp'] at hmem
  exact ⟨(startFill_of_ready p hg hr hw).trans (runJob_eq_paused hg hp'), (pausedJob_i hp').trans (Nat.zero_add p),
    hstands, hmem⟩

/-- Settles O29: by where the iterator stands after its first `p` byte writes. -/
theorem pausedFillWroteAPrefix : Obligations.PausedFillWroteAPrefix := by
  intro s g base len p h hp
  obtain ⟨hstart, hi, hstands, hmem⟩ := begunFill_run h hp
  have hrange := h.2.1
  have hlen := len.isLt
  have hi' : (jobRun p (begunFill s g base len) s).i = p := hi
  refine ⟨_, pausedJob p (begunFill s g base len) s, hstart, rfl, h.1, ?_, rfl, rfl, hi, ?_, fun hpos => ?_,
    fun k hk => ?_, fun a ha => ?_⟩
  · rw [pausedState, State.jobOf_setJob, if_pos rfl]
  · exact hstands.gen.trans (by rw [hi', drawCount_eq_ceil8])
  · exact (hstands.word (by omega)).trans (by rw [hi', bodyBytes])
  · rw [State.readByte, hmem]
    exact lookupKey_drawnBytes_inside s.mem (by omega) (Nat.zero_le k) (by omega)
  · rw [State.readByte, hmem]
    exact lookupKey_drawnBytes_outside s.mem fun b _ hb => ne_bufferAddr_of_outside (n := p) (by omega) ha (by omega)

/-! ### Completion -/

/-- An admitted FILL that is let run for more moves than its byte writes to come ends as R121 has it. -/
theorem runJob_fillEnded {s : State} {g : Wide} {j : FillJob} {p : Nat} (hg : s.genOf s.cur = some g)
    (hadm : jobAdmitted s.cfg g j) (hp : j.len.toNat - j.i < p) :
    ∃ t, runJob p j s = .next t ∧ fillEnded s t s.cur j g := by
  obtain ⟨hgen, hmem⟩ := jobRun_of_lt hadm hp
  have hi : j.i ≤ j.len.toNat := hadm.1
  have hlen := j.len.isLt
  refine ⟨_, runJob_of_lt hg hp, ?_, ?_, rfl, fun b hb hb' => ?_, fun a ha => ?_⟩
  · rw [State.genOf_answer, State.genOf_dropJob, State.genOf_setGen, if_pos rfl, hgen]
  · rw [State.jobOf_answer, State.jobOf_dropJob]
    exact if_pos rfl
  · rw [State.readByte, State.answer_mem, State.dropJob_mem, State.setGen_mem, hmem]
    exact lookupKey_drawnBytes_inside s.mem (by omega) hb (by omega)
  · rw [State.readByte, State.answer_mem, State.dropJob_mem, State.setGen_mem, hmem]
    exact lookupKey_drawnBytes_outside s.mem fun b hb hb' => ha b hb (by omega)

theorem step_of_jobs {s : State} {k : Nat} {j : FillJob} {rest : List (Nat × FillJob)} (hi : s.inputs = [])
    (hj : s.jobs = (k, j) :: rest) : step s = runJob (j.len.toNat + 1) j { s with cur := k } := by
  simp only [step, stepOnce, hi, serve, hj]

theorem step_of_advance_job {s : State} {k p : Nat} {j : FillJob} {es : List Event}
    (hi : s.inputs = .advance k p :: es) (hf : s.stuckOf k = none) (hj : s.jobOf k = some j) :
    step s = runJob p j { s with inputs := es, cur := k } := by
  have hf' : ({ s with inputs := es } : State).stuckOf k = none := hf
  have hj' : ({ s with inputs := es } : State).jobOf k = some j := hj
  simp only [step, stepOnce, hi, land, advance, hf', hj']

/-- Settles O59: the step is a run of the FILL, which ends it. -/
theorem stepRunsAFillInProgress : Obligations.StepRunsAFillInProgress := by
  intro s k j
  refine ⟨fun rest hi hj => ?_, fun p es hi hf hj => ?_⟩
  · have hstep := step_of_jobs hi hj
    refine ⟨hstep, fun g hg hadm => ?_⟩
    rw [hstep]
    exact runJob_fillEnded (s := { s with cur := k }) hg hadm (by omega)
  · have hstep := step_of_advance_job hi hf hj
    refine ⟨hstep, fun g hg hadm hp => ?_⟩
    rw [hstep]
    exact runJob_fillEnded (s := { s with inputs := es, cur := k }) hg hadm hp

end Sys2Proof.Machine
end

section
/-! PROOFS. The ports along a step: who runs, who is stuck, and that every command is answered
(70_reset_and_hazards.md R160 to R162; 60_exceptions.md R146, R150). -/

namespace Sys2Proof.Machine

open Sys2Proof.Slice0

/-! ### Events -/

/-- Settles O36: the tables of the reset state are empty. -/
theorem resetLeavesNoState : Obligations.ResetLeavesNoState := fun _ _ => ⟨rfl, rfl, rfl, rfl, rfl⟩

/-- Settles O42: the tables of the reset state are empty, and the default multipliers are odd. -/
theorem invariantsAtReset : Obligations.InvariantsAtReset :=
  ⟨by decide, by decide, by decide, by decide, fun _ hc => (List.not_mem_nil hc).elim, by decide, by decide⟩

theorem step_of_reset {s : State} {k : Nat} {accepted : Bool} {es : List Event}
    (hi : s.inputs = .reset k accepted :: es) : step s = .next (applyReset k accepted { s with inputs := es }) := by
  simp only [step, stepOnce, hi, land]

theorem takeCommand_eq_none {ready : Nat → Bool} {cs : List (Nat × CommandWord)} (h : ∀ c ∈ cs, ready c.1 = false) :
    takeCommand ready cs = none := by
  induction cs with
  | nil => rfl
  | cons c cs ih =>
    rw [takeCommand, if_neg (by simp [h c]), ih fun d hd => h d (List.mem_cons_of_mem _ hd)]

/-- With a FILL in progress or stuck, or no command of the port held, a reset abandons no held command. -/
theorem heldAfterAbandon_of_kept {s : State} {k : Nat}
    (h : s.jobOf k ≠ none ∨ s.stuckOf k ≠ none ∨ ∀ c ∈ s.commands, c.1 ≠ k) : heldAfterAbandon k s = s.commands := by
  unfold heldAfterAbandon
  split
  · rfl
  next hbusy =>
    have hidle : s.jobOf k = none ∧ s.stuckOf k = none := by simpa [State.busy] using hbusy
    have hnone : takeCommand (· == k) s.commands = none := by
      refine takeCommand_eq_none fun c hc => ?_
      rcases h with h | h | h
      · exact absurd hidle.1 h
      · exact absurd hidle.2 h
      · simpa using h c hc
    rw [hnone]

/-- With neither, a reset abandons the oldest command of the port. -/
theorem heldAfterAbandon_of_idle {s : State} {k : Nat} {w : CommandWord} {before after : List (Nat × CommandWord)}
    (hj : s.jobOf k = none) (hf : s.stuckOf k = none) (hc : s.commands = before ++ (k, w) :: after)
    (hb : ∀ c ∈ before, c.1 ≠ k) : heldAfterAbandon k s = before ++ after := by
  have hbusy : s.busy k = false := by simp [State.busy, hj, hf]
  have htake : takeCommand (· == k) s.commands = some ((k, w), before ++ after) := by
    rw [hc]
    exact takeCommand_of_split (by simp) fun d hd => by simpa using hb d hd
  simp only [heldAfterAbandon, hbusy, htake, Bool.false_eq_true, if_false]

/-- Settles O37: of the tables the entries of `k` are erased; the held commands by whether `k` had one in progress. -/
theorem resetOfAnInstance : Obligations.ResetOfAnInstance := by
  intro s k accepted es hi
  have hother {j : Nat} (hj : j ≠ k) : (s.resetInstance k).genOf j = s.genOf j ∧
      (s.resetInstance k).jobOf j = s.jobOf j ∧ (s.resetInstance k).stuckOf j = s.stuckOf j := by
    rw [State.genOf_resetInstance, State.jobOf_resetInstance, State.stuckOf_resetInstance, if_neg hj, if_neg hj,
      if_neg hj]
    exact ⟨rfl, rfl, rfl⟩
  refine ⟨_, step_of_reset hi, ?_, lookupKey_eraseKey_self _ _, lookupKey_eraseKey_self _ _, fun j => hother, rfl, rfl,
    rfl, rfl, fun h => ?_, fun ha hj hf before after w hc hb => ?_⟩
  · exact congrArg Option.isSome (lookupKey_eraseKey_self k s.gens)
  · change (if accepted then heldAfterAbandon k { s with inputs := es } else s.commands) = s.commands
    split
    next ha =>
      refine heldAfterAbandon_of_kept (s := { s with inputs := es }) (h.resolve_left ?_)
      simp [ha]
    next => rfl
  · change (if accepted then heldAfterAbandon k { s with inputs := es } else s.commands) = before ++ after
    rw [if_pos ha]
    exact heldAfterAbandon_of_idle (s := { s with inputs := es }) hj hf hc hb

/-- Settles O48: the landing of a write at a writable address is that write. -/
theorem outsideWriteLands : Obligations.OutsideWriteLands := by
  intro s a b es hi hw
  have hstep : step s = .next (({ s with inputs := es } : State).writeByte a b) := by
    simp only [step, stepOnce, hi, land, hw, if_true]
  refine ⟨_, hstep, ?_, fun c hc => ?_, rfl, rfl⟩
  · rw [readByte_writeByte, if_pos rfl]
  · rw [readByte_writeByte, if_neg hc]
    rfl

/-- Settles O47: leave to run goes to the FILL in progress or the stuck one first, and with none landing a FILL in
progress goes before every held command. -/
theorem busyPortHolds : Obligations.BusyPortHolds := by
  refine ⟨fun s k w es hi => ?_, fun s t k p es hi hbusy h => ?_, fun s t hi hjobs h => ?_⟩
  · simp only [step, stepOnce, hi, land]
  · cases hf : s.stuckOf k with
    | some f =>
      have hf' : ({ s with inputs := es } : State).stuckOf k = some f := hf
      simp only [step, stepOnce, hi, land, advance, hf'] at h
      cases h
      rfl
    | none =>
      obtain ⟨j, hj⟩ := Option.ne_none_iff_exists'.mp (hbusy.resolve_right (not_not.mpr hf))
      rw [step_of_advance_job hi hf hj] at h
      exact (ownMove_of_runJob h).commands
  · obtain ⟨⟨k, j⟩, rest, hj⟩ := List.exists_cons_of_ne_nil hjobs
    rw [step_of_jobs hi hj] at h
    exact (ownMove_of_runJob h).commands

/-! ### Held commands -/

/-- With neither an event nor a FILL in progress, a step takes up the oldest command of all ports that are not stuck. -/
theorem step_of_command {s : State} {k : Nat} {w : CommandWord} {before after : List (Nat × CommandWord)}
    (hi : s.inputs = []) (hj : s.jobs = []) (hc : s.commands = before ++ (k, w) :: after) (hf : s.stuckOf k = none)
    (hb : ∀ c ∈ before, s.stuckOf c.1 ≠ none) : step s = settle w (s.accept k (before ++ after))
      (execWord w (s.accept k (before ++ after))) := by
  have htake : takeCommand (fun k => (s.stuckOf k).isNone) s.commands = some ((k, w), before ++ after) := by
    rw [hc]
    exact takeCommand_of_split (by simp [hf]) fun d hd => by simpa [Option.isSome_iff_ne_none] using hb d hd
  simp only [step, stepOnce, hi, serve, hj, htake]

/-- With leave for an idle port to run, a step takes up its oldest command. -/
theorem step_of_advance_command {s : State} {k p : Nat} {w : CommandWord} {es : List Event}
    {before after : List (Nat × CommandWord)} (hi : s.inputs = .advance k p :: es) (hf : s.stuckOf k = none)
    (hj : s.jobOf k = none) (hc : s.commands = before ++ (k, w) :: after) (hb : ∀ c ∈ before, c.1 ≠ k) :
    step s = settle w (({ s with inputs := es } : State).accept k (before ++ after))
      (startWord p w (({ s with inputs := es } : State).accept k (before ++ after))) := by
  have hf' : ({ s with inputs := es } : State).stuckOf k = none := hf
  have hj' : ({ s with inputs := es } : State).jobOf k = none := hj
  have htake : takeCommand (· == k) s.commands = some ((k, w), before ++ after) := by
    rw [hc]
    exact takeCommand_of_split (by simp) fun d hd => by simpa using hb d hd
  simp only [step, stepOnce, hi, land, advance, hf', hj', htake]

theorem settle_next (w : CommandWord) (s t : State) : settle w s (.next t) = .next t := rfl

theorem settle_of_fill {w : CommandWord} {base : Addr} {len : Word} (hd : decode w = .ok (.fill base len)) (s : State) :
    settle w s (.fault .bufferNotWritable) = .next (s.stick { base := base, len := len }) := by
  simp only [settle, hd]

/-- What the port makes of an answer of a word that decodes, where only a FILL has no step. -/
theorem settledAs_settle {i : Instr} {w : CommandWord} {s : State} {a : Answer} (hd : decode w = .ok i)
    (ha : a = .fault .bufferNotWritable → ∃ base len, i = .fill base len) : settledAs i s a (settle w s a) := by
  refine ⟨fun hne => ?_, fun he => ?_⟩
  · rcases settle_cases w s a with h | ⟨base, len, h, -, -⟩
    · exact h
    · exact absurd h hne
  · obtain ⟨base, len, rfl⟩ := ha he
    subst he
    exact ⟨base, len, rfl, settle_of_fill hd s⟩

theorem fill_of_exec_fault {i : Instr} {s : State} {r : Fault} (h : exec i s = .fault r) :
    ∃ base len, i = .fill base len := by
  rcases exec_next_or_stuck i s with ⟨t, ht⟩ | ⟨base, len, g, rfl, -⟩
  · cases ht.symm.trans h
  · exact ⟨base, len, rfl⟩

theorem execWord_of_ok {w : CommandWord} {i : Instr} (h : decode w = .ok i) (s : State) : execWord w s = exec i s := by
  simp only [execWord, h]

/-- Settles O7: the step takes up the word and settles its answer. -/
theorem stepRunsDecodedCommand : Obligations.StepRunsDecodedCommand := by
  intro s k w before after i hc hf hd
  refine ⟨fun hi hj hb => ?_, fun p es hi hj hb => ?_⟩
  · rw [step_of_command hi hj hc hf hb, execWord_of_ok hd]
    exact settledAs_settle hd fill_of_exec_fault
  · rw [step_of_advance_command hi hf hj hc hb]
    refine settledAs_settle hd fun hfault => ?_
    rcases startWord_cases p w (({ s with inputs := es } : State).accept k (before ++ after)) with he | ⟨b, l, hd', -⟩
    · rw [he, execWord_of_ok hd] at hfault
      exact fill_of_exec_fault hfault
    · exact ⟨b, l, Except.ok.inj (hd.symm.trans hd')⟩

/-- Settles O8: the placed word is the oldest held command of a port that is not stuck. -/
theorem placedWordRunsNext : Obligations.PlacedWordRunsNext := by
  intro s nbits w i hw
  have hd : decode (BitVec.ofNat 136 (w % 2 ^ nbits)) = .ok i := by
    unfold decodeTableWord at hw
    split at hw
    next h => rw [h, Option.some.inj hw]
    next => cases hw
  have hstep := step_of_command (s := s.withFetchWord nbits w) (k := s.cur) (before := []) (after := s.commands)
    (w := BitVec.ofNat 136 (w % 2 ^ nbits)) rfl rfl rfl (lookupKey_eraseKey_self _ _) (by simp)
  rw [execWord_of_ok hd] at hstep
  rw [hstep]
  exact settledAs_settle hd fill_of_exec_fault

/-! ### Who runs -/

theorem OwnMove.entries_ne {s t : State} (h : OwnMove s t) {k : Nat} (hk : k ≠ s.cur) :
    t.genOf k = s.genOf k ∧ t.jobOf k = s.jobOf k ∧ t.stuckOf k = s.stuckOf k :=
  ⟨h.genOf_ne hk, h.jobOf_ne hk, h.stuckOf_ne hk⟩

/-- Settles O46: every move is an event, or the run of one port. -/
theorem stepMovesOneInstance : Obligations.StepMovesOneInstance := by
  intro s t k h
  cases step_cases h with
  | presented | idle | wrote => exact .inl ⟨rfl, rfl, rfl⟩
  | reset k' accepted es hi =>
    by_cases hk : k = k'
    · exact .inr (.inr ⟨accepted, es, hk ▸ hi⟩)
    · exact .inl ⟨lookupKey_eraseKey_ne hk _, lookupKey_eraseKey_ne hk _, lookupKey_eraseKey_ne hk _⟩
  | stayedStuck k' p es f hi hf =>
    by_cases hk : k = k'
    · exact .inr (.inl ⟨hk.symm, .inr ⟨p, es, hk ▸ hi⟩⟩)
    · exact .inl ((OwnMove.stick (State.accept { s with inputs := es } k' s.commands) f).entries_ne hk)
  | ranJob k' p j _ hr hj ht =>
    have hm := ownMove_of_runJob ht
    by_cases hk : k = k'
    · subst hk
      exact .inr (.inl ⟨hm.cur, hr.imp_left fun hi => ⟨hi, .inl ⟨j, hj⟩⟩⟩)
    · exact .inl (hm.entries_ne hk :)
  | ranCommand k' w before after _ hr hf hj hc hb ht =>
    have hm := ht.ownMove
    by_cases hk : k = k'
    · subst hk
      exact .inr (.inl ⟨hm.cur, hr.imp_left fun hi => ⟨hi, .inr ⟨w, by simp [hc]⟩⟩⟩)
    · exact .inl (hm.entries_ne hk :)

end Sys2Proof.Machine
end

section
/-! PROOFS. Ports stuck on a FILL over memory that is not writable (20_memory.md R36), that every step answers, and that
every command is answered (60_exceptions.md R150, 70_reset_and_hazards.md R162, R167). -/

namespace Sys2Proof.Machine

open Sys2Proof.Slice0

/-! ### Stuck ports -/

/-- The positions before the first that is not writable. -/
theorem lt_writableReach_iff {c : Config} {base : Addr} {n j : Nat} :
    j < writableReach c base n ↔ j < n ∧ ∀ i ≤ j, c.isWritable (bufferAddr base i) = true := by
  refine ⟨fun h => ⟨h.trans_le (writableReach_le c base n), fun i hi =>
    isWritable_of_lt_writableReach c base n (hi.trans_lt h)⟩, ?_⟩
  induction n generalizing j with
  | zero => exact fun h => absurd h.1 (Nat.not_lt_zero j)
  | succ n ih =>
    rintro ⟨hj, hw⟩
    rw [writableReach]
    split
    · exact hj
    next hstop =>
      rcases Nat.lt_succ_iff_lt_or_eq.mp hj with hlt | rfl
      · exact ih ⟨hlt, hw⟩
      · have hreach : writableReach c base j < j :=
          (writableReach_le c base j).lt_of_ne fun heq => hstop ⟨heq, hw j le_rfl⟩
        exact absurd (ih ⟨hreach, fun i hi => hw i (hi.trans hreach.le)⟩) (lt_irrefl _)

theorem stuck_of_runJob {p : Nat} {j : FillJob} {s t : State} (h : runJob p j s = .next t) : t.stuck = s.stuck := by
  rcases runJob_cases h with ⟨-, rfl⟩ | ⟨g, -, -, rfl⟩ | ⟨g, -, -, rfl⟩ <;> rfl

/-- A port that takes up a command comes to be stuck only by a FILL that passes its first two checks. -/
theorem TakenMove.newly_stuck {w : CommandWord} {s t : State} (h : TakenMove w s t) {k : Nat} {f : StuckFill}
    (hs : s.stuckOf k = none) (ht : t.stuckOf k = some f) :
    k = s.cur ∧ t = s.stick f ∧ bufferWritable s.cfg f.base f.len.toNat = false := by
  have hsame (heq : t.stuck = s.stuck) : False := by
    rw [State.stuckOf, heq] at ht
    cases hs.symm.trans ht
  cases h with
  | refused e => exact (hsame rfl).elim
  | executed i _ hd hx => exact (hsame (executed_of_exec hx).jobs_stuck.2).elim
  | began p base len g _ hd hg hr hw hx => exact (hsame (stuck_of_runJob hx)).elim
  | stuck base len g hd hg hr hw =>
    rw [State.stuckOf_stick] at ht
    split at ht
    next hk =>
      cases ht
      exact ⟨hk, rfl, hw⟩
    next hk => cases hs.symm.trans ht

/-- A step that leaves a port newly stuck is one in which that port has taken up such a FILL. -/
theorem step_newly_stuck {s t : State} {k : Nat} {f : StuckFill} (h : step s = .next t) (hs : s.stuckOf k = none)
    (ht : t.stuckOf k = some f) : ∃ es rest, t = (({ s with inputs := es } : State).accept k rest).stick f ∧
      bufferWritable s.cfg f.base f.len.toNat = false := by
  have hsame (heq : t.stuck = s.stuck) : False := by
    rw [State.stuckOf, heq] at ht
    cases hs.symm.trans ht
  cases step_cases h with
  | presented | idle | wrote => exact (hsame rfl).elim
  | reset k' accepted es hi =>
    change lookupKey k (eraseKey k' s.stuck) = some f at ht
    rw [lookupKey_eraseKey] at ht
    split at ht
    · cases ht
    · cases hs.symm.trans ht
  | stayedStuck k' p es f' hi hf =>
    have hk : k ≠ k' := by
      rintro rfl
      cases hs.symm.trans hf
    rw [State.stuckOf_stick, State.accept_cur, if_neg hk] at ht
    cases hs.symm.trans ht
  | ranJob k' p j _ hr hj hx => exact (hsame (stuck_of_runJob hx :)).elim
  | ranCommand k' w before after _ hr hf hj hc hb hx =>
    obtain ⟨rfl, rfl, hw⟩ := hx.newly_stuck hs ht
    exact ⟨_, _, rfl, hw⟩

/-- Settles O56: the step is `State.stick` of that port. -/
theorem stuckFillStopsItsInstanceOnly : Obligations.StuckFillStopsItsInstanceOnly := by
  intro s t k f h hs ht
  obtain ⟨es, rest, rfl, hw⟩ := step_newly_stuck h hs ht
  have hmove := OwnMove.stick (State.accept { s with inputs := es } k rest) f
  have hforget (a : Addr) := lookupKey_memForget a f.base (writableReach s.cfg f.base f.len.toNat) s.mem
  refine ⟨rfl, rfl, ?_, rfl, fun j hj => ⟨hmove.genOf_ne hj, hmove.stuckOf_ne hj⟩,
    (bufferWritable_eq_false_iff _ _ _).mp hw, fun j hj hbefore => ?_, fun a ha => ?_⟩
  · rw [State.validOf, State.genOf_stick]
    exact congrArg Option.isSome (if_pos rfl)
  · exact (hforget _).1 ⟨j, lt_writableReach_iff.mpr ⟨hj, hbefore⟩, rfl⟩
  · refine (hforget a).2 fun j hj => ?_
    obtain ⟨hlen, hbefore⟩ := lt_writableReach_iff.mp hj
    exact ha j hlen hbefore

/-- The commands held at port `k`. -/
def heldAt (k : Nat) (cs : List (Nat × CommandWord)) : List (Nat × CommandWord) := cs.filter fun c => c.1 == k

/-- Another port's command taken off leaves those held at `k`. -/
theorem heldAt_of_taken {k : Nat} {c : Nat × CommandWord} (hc : c.1 ≠ k) (before after : List (Nat × CommandWord)) :
    heldAt k (before ++ after) = heldAt k (before ++ c :: after) := by
  have hck : (c.1 == k) = false := by simpa using hc
  simp only [heldAt, List.filter_append, List.filter_cons, hck, Bool.false_eq_true, if_false]

/-- The reset of another port leaves the commands held at `k`. -/
theorem heldAt_heldAfterAbandon {s : State} {k k' : Nat} (hk : k' ≠ k) :
    heldAt k (heldAfterAbandon k' s) = heldAt k s.commands := by
  unfold heldAfterAbandon
  split
  · rfl
  · split
    next c rest htake =>
      obtain ⟨hc, before, after, hcs, hrest, -⟩ := takeCommand_some htake
      have hck : c.1 = k' := by simpa using hc
      rw [hcs, hrest, heldAt_of_taken (hck ▸ hk)]
    next => rfl

/-- What port `k`, stuck on `f` and with no FILL in progress, keeps in a step that is not its reset: it is stuck on the
same FILL, answers nothing, and holds its commands in order. -/
structure StaysStuck (s t : State) (k : Nat) (f : StuckFill) : Prop where
  stuck : t.stuckOf k = some f
  responses : ∃ rs, t.responses = s.responses ++ rs ∧ ∀ r ∈ rs, r.port ≠ k
  commands : ∃ more, heldAt k t.commands = heldAt k s.commands ++ more

/-- The run of another port. -/
theorem StaysStuck.of_ownMove {u t : State} {k : Nat} {f : StuckFill} (hm : OwnMove u t) (hk : k ≠ u.cur)
    (hf : u.stuckOf k = some f) : StaysStuck u t k f := by
  obtain ⟨rs, hrs, hport⟩ := hm.responses
  refine ⟨(hm.stuckOf_ne hk).trans hf, ⟨rs, hrs, fun r hr => ?_⟩, [], by rw [hm.commands, List.append_nil]⟩
  rw [hport r hr]
  exact hk.symm

theorem StaysStuck.of_commands_eq {s t : State} {k : Nat} {f : StuckFill} (hf : t.stuckOf k = some f)
    (hr : t.responses = s.responses) (hc : heldAt k t.commands = heldAt k s.commands) : StaysStuck s t k f :=
  ⟨hf, ⟨[], by rw [hr, List.append_nil], fun _ h => (List.not_mem_nil h).elim⟩, [], by rw [hc, List.append_nil]⟩

theorem step_staysStuck {s t : State} {k : Nat} {f : StuckFill} (hjob : s.jobOf k = none) (h : step s = .next t)
    (hf : s.stuckOf k = some f) : (∃ accepted es, s.inputs = .reset k accepted :: es) ∨ StaysStuck s t k f := by
  cases step_cases h with
  | idle | wrote => exact .inr (.of_commands_eq hf rfl rfl)
  | presented k' w es hi =>
    refine .inr ⟨hf, ⟨[], (List.append_nil _).symm, fun _ h => (List.not_mem_nil h).elim⟩, heldAt k [(k', w)], ?_⟩
    exact List.filter_append _ _
  | reset k' accepted es hi =>
    by_cases hk : k' = k
    · exact .inl ⟨accepted, es, hk ▸ hi⟩
    · refine .inr (.of_commands_eq ((lookupKey_eraseKey_ne (Ne.symm hk) _).trans hf) rfl ?_)
      change heldAt k (if accepted then heldAfterAbandon k' { s with inputs := es } else s.commands) = _
      split
      · exact heldAt_heldAfterAbandon hk
      · rfl
  | stayedStuck k' p es f' hi hf' =>
    refine .inr (.of_commands_eq ?_ rfl rfl)
    rw [State.stuckOf_stick]
    split
    next hk =>
      obtain rfl : k = k' := hk
      exact hf'.symm.trans hf
    next hk => exact hf
  | ranJob k' p j _ hr hj hx =>
    have hk : k ≠ k' := by
      rintro rfl
      exact lookupKey_eq_none_iff.mp hjob _ hj rfl
    obtain ⟨hstuck, hresp, hcommands⟩ := StaysStuck.of_ownMove (ownMove_of_runJob hx) hk hf
    exact .inr ⟨hstuck, hresp, hcommands⟩
  | ranCommand k' w before after _ hr hf' hj hc hb hx =>
    have hk : k ≠ k' := by
      rintro rfl
      cases hf'.symm.trans hf
    obtain ⟨hstuck, hresp, hcommands⟩ := StaysStuck.of_ownMove hx.ownMove hk hf
    refine .inr ⟨hstuck, hresp, ?_⟩
    rw [hc, ← heldAt_of_taken (c := (k', w)) hk.symm]
    exact hcommands

/-- Settles O57: only its own reset and its own run touch a port, and stuck it is not run. -/
theorem onlyResetFreesAStuckInstance : Obligations.OnlyResetFreesAStuckInstance := by
  intro s t k f hs h hf
  obtain ⟨hvalid, hjob, -⟩ := hs _ (mem_of_lookupKey hf)
  by_cases hreset : ∃ accepted es, s.inputs = .reset k accepted :: es
  · exact .inl hreset
  · obtain ⟨hstuck, hresp, hcommands⟩ := (step_staysStuck hjob h hf).resolve_left hreset
    refine .inr ⟨hstuck, ?_, hresp, hcommands⟩
    by_contra hlost
    exact hreset (validOf_cleared h hvalid hlost)

/-! ### Every step answers -/

theorem settle_exec_next {w : CommandWord} {i : Instr} (hd : decode w = .ok i) (s : State) :
    ∃ t, settle w s (exec i s) = .next t := by
  rcases exec_next_or_stuck i s with ⟨t, ht⟩ | ⟨base, len, g, rfl, he, -⟩
  · exact ⟨t, by rw [ht, settle_next]⟩
  · exact ⟨_, by rw [he, settle_of_fill hd]⟩

theorem settle_execWord_next (w : CommandWord) (s : State) : ∃ t, settle w s (execWord w s) = .next t := by
  rcases execWord_cases w s with ⟨e, -, he⟩ | ⟨i, hd, he⟩ <;> rw [he]
  · exact ⟨_, rfl⟩
  · exact settle_exec_next hd s

theorem settle_startWord_next (p : Nat) (w : CommandWord) (s : State) :
    ∃ t, settle w s (startWord p w s) = .next t := by
  rcases startWord_cases p w s with he | ⟨base, len, hd, he⟩ <;> rw [he]
  · exact settle_execWord_next w s
  · rcases withBuffer_cases base len s _ with ⟨-, hb⟩ | ⟨g, hg, ⟨-, hb⟩ | ⟨-, -, hb⟩ | ⟨hr, hw, -⟩⟩
    · exact ⟨_, by rw [startFill, hb]; rfl⟩
    · exact ⟨_, by rw [startFill, hb]; rfl⟩
    · exact ⟨_, by rw [startFill, hb, settle_of_fill hd]⟩
    · obtain ⟨t, ht⟩ := runJob_next p (begunFill s g base len) s
      exact ⟨t, by rw [startFill_of_ready p hg hr hw, ht, settle_next]⟩

theorem advance_next (k p : Nat) (s : State) : ∃ t, advance k p s = .next t := by
  unfold advance
  split
  · exact ⟨_, rfl⟩
  · split
    · exact runJob_next _ _ _
    · split
      · exact settle_startWord_next _ _ _
      · exact ⟨_, rfl⟩

theorem serve_next (s : State) : ∃ t, serve s = .next t := by
  unfold serve
  split
  · exact runJob_next _ _ _
  · split
    · exact settle_execWord_next _ _
    · exact ⟨_, rfl⟩

/-- Settles O58: by what lands. -/
theorem onlyAnOutsideWriteStopsTheSystem : Obligations.OnlyAnOutsideWriteStopsTheSystem := by
  intro s
  unfold step stepOnce
  split
  next e es hi =>
    cases e with
    | present | reset => exact .inl ⟨_, rfl⟩
    | advance k p => exact .inl (advance_next k p _)
    | externWrite a b =>
      cases hw : s.cfg.isWritable a with
      | true => exact .inl ⟨_, if_pos hw⟩
      | false => exact .inr ⟨if_neg (by simp [hw]), a, b, es, hi, hw⟩
  next => exact .inl (serve_next s)

/-! ### Every command is answered -/

/-- Nothing is to land, no port is stuck, and every address is writable. -/
structure Quiet (s : State) : Prop where
  inputs : s.inputs = []
  stuck : s.stuck = []
  writable : ∀ a, s.cfg.isWritable a = true

theorem Quiet.of_ownMove {s t : State} (h : Quiet s) (hm : OwnMove s t) (hstuck : t.stuck = s.stuck) : Quiet t :=
  ⟨hm.inputs.trans h.inputs, hstuck.trans h.stuck, by rw [hm.cfg]; exact h.writable⟩

theorem core_run_succ {s t : State} (h : step s = .next t) (n : Nat) : core.run (n + 1) s = core.run n t := by
  have hs : core.step s = .next t := h
  simp only [Host.Core.run, hs]

/-- From `s` to `t` one response has left each of `ports`, in that order, and `t` is still quiet. -/
structure Answered (s t : State) (ports : List Nat) : Prop where
  quiet : Quiet t
  responses : ∃ rs, t.responses = s.responses ++ rs ∧ rs.map (·.port) = ports

theorem Answered.trans {s t u : State} {ps qs : List Nat} (h : Answered s t ps) (h' : Answered t u qs) :
    Answered s u (ps ++ qs) := by
  obtain ⟨rs, hrs, hps⟩ := h.responses
  obtain ⟨rs', hrs', hqs⟩ := h'.responses
  exact ⟨h'.quiet, rs ++ rs', by rw [hrs', hrs, List.append_assoc], by rw [List.map_append, hps, hqs]⟩

/-- A held word is answered, whatever it is. -/
theorem execWord_of_quiet {s : State} (h : Quiet s) (w : CommandWord) : ∃ t e d, execWord w s = .next t ∧
    OwnMove s t ∧ t.jobs = s.jobs ∧ t.stuck = s.stuck ∧ t.responses = s.responses ++ [⟨s.cur, e, d⟩] := by
  rcases execWord_cases w s with ⟨e, -, he⟩ | ⟨i, hd, he⟩
  · exact ⟨_, _, _, he, .answer s _ _, rfl, rfl, rfl⟩
  · rcases exec_next_or_stuck i s with ⟨t, ht⟩ | ⟨base, len, g, -, -, -, -, hw⟩
    · have hx := executed_of_exec ht
      obtain ⟨e, d, hresp⟩ := hx.response
      exact ⟨t, e, d, he.trans ht, hx.ownMove, hx.jobs_stuck.1, hx.jobs_stuck.2, hresp⟩
    · obtain ⟨j, -, hj⟩ := (bufferWritable_eq_false_iff _ _ _).mp hw
      cases hj.symm.trans (h.writable _)

/-- One step answers the oldest held command. -/
theorem step_answers_command {s : State} {k : Nat} {w : CommandWord} {cs : List (Nat × CommandWord)} (h : Quiet s)
    (hj : s.jobs = []) (hc : s.commands = (k, w) :: cs) :
    ∃ t, step s = .next t ∧ Answered s t [k] ∧ t.jobs = [] ∧ t.commands = cs := by
  have hquiet : Quiet (s.accept k cs) := ⟨h.inputs, h.stuck, h.writable⟩
  obtain ⟨t, e, d, ht, hm, hjobs, hstuck, hresp⟩ := execWord_of_quiet hquiet w
  have hf : s.stuckOf k = none := by rw [State.stuckOf, h.stuck, lookupKey_nil]
  refine ⟨t, ?_, ⟨hquiet.of_ownMove hm hstuck, _, hresp, rfl⟩, hjobs.trans hj, hm.commands⟩
  rw [step_of_command (before := []) h.inputs hj hc hf (by simp), List.nil_append, ht, settle_next]

/-- With no FILL in progress, as many steps as there are held commands answer them in order. -/
theorem run_answers_commands {s : State} (h : Quiet s) (hj : s.jobs = []) :
    ∃ t, core.run s.commands.length s = .next t ∧ Answered s t (s.commands.map (·.1)) ∧ t.jobs = [] ∧
      t.commands = [] := by
  generalize hc : s.commands = cs
  induction cs generalizing s with
  | nil => exact ⟨s, rfl, ⟨h, [], by simp, rfl⟩, hj, hc⟩
  | cons c cs ih =>
    obtain ⟨u, hu, hans, hj', hc'⟩ := step_answers_command h hj hc
    obtain ⟨t, ht, hans', hj'', hc''⟩ := ih hans.quiet hj' hc'
    exact ⟨t, (core_run_succ hu _).trans ht, hans.trans hans', hj'', hc''⟩

/-- The entry of the lowest key is erased by dropping the head. -/
theorem eraseKey_head {α : Type} {k : Nat} {v : α} {t : List (Nat × α)} (h : tableWf ((k, v) :: t)) :
    eraseKey k ((k, v) :: t) = t := by
  have hnone : lookupKey k t = none :=
    lookupKey_eq_none_iff.mpr fun c hc => Nat.ne_of_gt ((List.pairwise_cons.mp h).1 c hc)
  have hdrop : eraseKey k ((k, v) :: t) = eraseKey k t := by simp [eraseKey]
  rw [hdrop, eraseKey_of_lookupKey_none hnone]

/-- One step ends the FILL in progress of the lowest port. -/
theorem step_answers_fill {s : State} {k : Nat} {j : FillJob} {js : List (Nat × FillJob)} (h : Quiet s)
    (hwf : tableWf s.jobs) (hs : JobsInv s) (hj : s.jobs = (k, j) :: js) :
    ∃ t, step s = .next t ∧ Answered s t [k] ∧ t.jobs = js ∧ t.commands = s.commands ∧ JobsInv t := by
  obtain ⟨g, hg, hadm⟩ := hs (k, j) (by simp [hj])
  obtain ⟨t, ht, -, hjob, hresp, -⟩ := runJob_fillEnded (s := { s with cur := k }) hg hadm
    (show j.len.toNat - j.i < j.len.toNat + 1 by omega)
  have hm := ownMove_of_runJob ht
  have hquiet : Quiet ({ s with cur := k } : State) := ⟨h.inputs, h.stuck, h.writable⟩
  have hjobs : t.jobs = js := by
    rw [hj] at hwf
    calc t.jobs = eraseKey k t.jobs := (eraseKey_of_lookupKey_none hjob).symm
      _ = eraseKey k s.jobs := hm.jobs
      _ = js := by rw [hj, eraseKey_head hwf]
  exact ⟨t, (step_of_jobs h.inputs hj).trans ht, ⟨hquiet.of_ownMove hm (stuck_of_runJob ht), _, hresp, rfl⟩, hjobs,
    hm.commands, jobsInv_runJob ht hs hg hadm⟩

/-- As many steps as there are fills in progress end them, by port. -/
theorem run_answers_fills {s : State} (h : Quiet s) (hwf : tableWf s.jobs) (hs : JobsInv s) :
    ∃ t, (∀ n, core.run (s.jobs.length + n) s = core.run n t) ∧ Answered s t (s.jobs.map (·.1)) ∧ t.jobs = [] ∧
      t.commands = s.commands := by
  generalize hj : s.jobs = js
  induction js generalizing s with
  | nil => exact ⟨s, fun n => by rw [List.length_nil, Nat.zero_add], ⟨h, [], by simp, rfl⟩, hj, rfl⟩
  | cons c js ih =>
    obtain ⟨u, hu, hans, hj', hc, hs'⟩ := step_answers_fill h hwf hs hj
    have hwf' : tableWf u.jobs := by
      rw [hj] at hwf
      rw [hj']
      exact hwf.of_cons
    obtain ⟨t, ht, hans', hj'', hc'⟩ := ih hans.quiet hwf' hs' hj'
    refine ⟨t, fun n => ?_, hans.trans hans', hj'', hc'.trans hc⟩
    rw [List.length_cons, Nat.succ_add, core_run_succ hu, ht]

/-- Settles O49: the fills in progress first, then the held commands. -/
theorem heldCommandsAreAnsweredInOrder : Obligations.HeldCommandsAreAnsweredInOrder := by
  intro s hi hstuck hw hwf hs
  obtain ⟨u, hu, hfills, hj, hc⟩ := run_answers_fills ⟨hi, hstuck, hw⟩ hwf hs
  obtain ⟨t, ht, hcommands, hj', hc'⟩ := run_answers_commands hfills.quiet hj
  rw [hc] at ht hcommands
  obtain ⟨rs, hrs, hports⟩ := (hfills.trans hcommands).responses
  exact ⟨t, rs, (hu _).trans ht, hj', hc', hrs, hports⟩

/-- Settles O55: the three schedules are run. -/
theorem overlappingFillsRace : Obligations.OverlappingFillsRace :=
  ⟨⟨_, rfl, by decide, by decide⟩, ⟨_, rfl, by decide, by decide⟩, ⟨_, rfl, by decide, by decide⟩⟩

end Sys2Proof.Machine
end
